-- ==== Sys2Proof/Word.lean ====
section
/-! DEFINITION. The word types of the machine and nothing else: bytes, 16-bit words, the 12-bit address
immediate and the 4-bit register index (spec/00_scope.md R7, R9). Every quantity is unsigned. -/

namespace Sys2Proof

/-- An 8-bit value: a memory cell, a general register, a timer, an immediate `kk` (R7 `VWIDTH`, `TWIDTH`). -/
abbrev Byte := BitVec 8

/-- A 16-bit value: `I`, `PC`, a stack entry, an instruction word (R7 `IWIDTH`, `PCWIDTH`, `STACK_ENTRY_WIDTH`). -/
abbrev Word := BitVec 16

/-- The immediate `nnn`, `op[11:0]` (R11, R93). -/
abbrev Addr := BitVec 12

/-- A register index, `op[11:8]` or `op[7:4]`: it names one of V0..VF and can never exceed 15 (R21, R93). -/
abbrev Reg := BitVec 4

end Sys2Proof
end

