-- ==== Sys2Proof/Syntax.lean ====
section
/-! DEFINITION. The instruction set: one constructor for each row of spec/opcode_table.json, in its order
(spec/30_encoding.md R96), and the default row. Operands have exactly the width of their fields (R93). -/

namespace Sys2Proof

/-- The 19 instructions and the default no-op. -/
inductive Instr where
  /-- `00E0` CLS (R140). -/
  | cls
  /-- `00EE` RET (R141). -/
  | ret
  /-- `1nnn` JP addr (R142). -/
  | jp (nnn : Addr)
  /-- `2nnn` CALL addr (R143). -/
  | call (nnn : Addr)
  /-- `3xkk` SE Vx, byte (R150). -/
  | seByte (x : Reg) (kk : Byte)
  /-- `4xkk` SNE Vx, byte (R151). -/
  | sneByte (x : Reg) (kk : Byte)
  /-- `5xy0` SE Vx, Vy (R152). -/
  | seReg (x y : Reg)
  /-- `6xkk` LD Vx, byte (R160). -/
  | ldByte (x : Reg) (kk : Byte)
  /-- `7xkk` ADD Vx, byte (R161). -/
  | addByte (x : Reg) (kk : Byte)
  /-- `8xy0` LD Vx, Vy (R162). -/
  | ldReg (x y : Reg)
  /-- `8xy1` OR Vx, Vy (R163). -/
  | orReg (x y : Reg)
  /-- `8xy2` AND Vx, Vy (R164). -/
  | andReg (x y : Reg)
  /-- `8xy3` XOR Vx, Vy (R165). -/
  | xorReg (x y : Reg)
  /-- `Annn` LD I, addr (R170). -/
  | ldI (nnn : Addr)
  /-- `Fx07` LD Vx, DT (R180). -/
  | ldFromDt (x : Reg)
  /-- `Fx18` LD ST, Vx (R181). -/
  | ldToSt (x : Reg)
  /-- `Fx1E` ADD I, Vx (R171). -/
  | addI (x : Reg)
  /-- `Fx55` LD [I], Vx (R190). -/
  | storeRegs (x : Reg)
  /-- `Fx65` LD Vx, [I] (R191). -/
  | loadRegs (x : Reg)
  /-- Any word that matches none of the 19 patterns: the default no-op, which carries its word (R126). -/
  | unrecognised (op : Word)
  deriving DecidableEq, Repr

end Sys2Proof
end

