-- ==== Sys2Proof/WellFormed.lean ====
section
/-! DEFINITION. Which terms of `Instr` stand for a word. Every operand has the width of its field, so the one thing to
check is that an `unrecognised` term carries a word outside the 19 patterns. The check is written from the map by
major opcode (spec/30_encoding.md R97), not from the mask and match table the decoder uses (R96). -/

namespace Sys2Proof

/-- The words of R97's column "words that are instructions", by major opcode `op[15:12]`. -/
def recognised (op : Word) : Bool :=
  match (op >>> 12).toNat with
  | 0x0 => op == 0x00E0#16 || op == 0x00EE#16
  | 0x1 | 0x2 | 0x3 | 0x4 | 0x6 | 0x7 | 0xA => true
  | 0x5 => op.toNat % 16 == 0
  | 0x8 => op.toNat % 16 ≤ 3
  | 0xF => [0x07, 0x18, 0x1E, 0x55, 0x65].contains (op.toNat % 256)
  | _ => false

/-- A term is well formed when it is the meaning of some 16-bit word (R97, R98). -/
def Instr.wellFormed : Instr → Bool
  | .unrecognised op => !recognised op
  | .cls | .ret | .jp _ | .call _ | .seByte _ _ | .sneByte _ _ | .seReg _ _ | .ldByte _ _ | .addByte _ _
  | .ldReg _ _ | .orReg _ _ | .andReg _ _ | .xorReg _ _ | .ldI _ | .ldFromDt _ | .ldToSt _ | .addI _
  | .storeRegs _ | .loadRegs _ => true

end Sys2Proof
end

