-- ==== Sys2Proof/Decode.lean ====
section
/-! DEFINITION. Fetch order of an instruction's two bytes, field extraction, the 19-row mask and match table and the
decoder over it (spec/30_encoding.md R90 to R98), and the encoder, written from the five formats (R92). -/

namespace Sys2Proof

/-- The 16-bit word of two consecutive bytes, high byte first: `mem[pc] << 8 | mem[pc+1]` (R64, R90). -/
def wordOfBytes (hi lo : Byte) : Word := hi.setWidth 16 <<< 8 ||| lo.setWidth 16

/-- `op[15:8]`, the byte at the lower address (R64). -/
def highByte (op : Word) : Byte := op.extractLsb' 8 8

/-- `op[7:0]`, the byte at the higher address (R64). -/
def lowByte (op : Word) : Byte := op.extractLsb' 0 8

/-- `x = op[11:8]` (R11). -/
def fieldX (op : Word) : Reg := op.extractLsb' 8 4

/-- `y = op[7:4]` (R11). -/
def fieldY (op : Word) : Reg := op.extractLsb' 4 4

/-- `kk = op[7:0]` (R11). -/
def fieldKK (op : Word) : Byte := op.extractLsb' 0 8

/-- `nnn = op[11:0]` (R11). -/
def fieldNNN (op : Word) : Addr := op.extractLsb' 0 12

/-- One row of the opcode map (R96): `pattern` is the row's match value, `build` reads its fields. -/
structure Row where
  mask : Word
  pattern : Word
  build : Word → Instr

/-- A word matches a row when `op & mask = match` (R94). -/
def Row.hits (r : Row) (op : Word) : Bool := op &&& r.mask == r.pattern

/-- Format E rows, the whole word literal (R92, R96). -/
def rowsExact : List Row :=
  [⟨0xFFFF, 0x00E0, fun _ => .cls⟩,
   ⟨0xFFFF, 0x00EE, fun _ => .ret⟩]

/-- Format F rows, register and function byte (R92, R96). -/
def rowsFunction : List Row :=
  [⟨0xF0FF, 0xF007, fun op => .ldFromDt (fieldX op)⟩,
   ⟨0xF0FF, 0xF018, fun op => .ldToSt (fieldX op)⟩,
   ⟨0xF0FF, 0xF01E, fun op => .addI (fieldX op)⟩,
   ⟨0xF0FF, 0xF055, fun op => .storeRegs (fieldX op)⟩,
   ⟨0xF0FF, 0xF065, fun op => .loadRegs (fieldX op)⟩]

/-- Format R rows, two registers and function nibble (R92, R96). -/
def rowsRegister : List Row :=
  [⟨0xF00F, 0x5000, fun op => .seReg (fieldX op) (fieldY op)⟩,
   ⟨0xF00F, 0x8000, fun op => .ldReg (fieldX op) (fieldY op)⟩,
   ⟨0xF00F, 0x8001, fun op => .orReg (fieldX op) (fieldY op)⟩,
   ⟨0xF00F, 0x8002, fun op => .andReg (fieldX op) (fieldY op)⟩,
   ⟨0xF00F, 0x8003, fun op => .xorReg (fieldX op) (fieldY op)⟩]

/-- Format A and K rows, major opcode alone literal (R92, R96). -/
def rowsMajor : List Row :=
  [⟨0xF000, 0x1000, fun op => .jp (fieldNNN op)⟩,
   ⟨0xF000, 0x2000, fun op => .call (fieldNNN op)⟩,
   ⟨0xF000, 0x3000, fun op => .seByte (fieldX op) (fieldKK op)⟩,
   ⟨0xF000, 0x4000, fun op => .sneByte (fieldX op) (fieldKK op)⟩,
   ⟨0xF000, 0x6000, fun op => .ldByte (fieldX op) (fieldKK op)⟩,
   ⟨0xF000, 0x7000, fun op => .addByte (fieldX op) (fieldKK op)⟩,
   ⟨0xF000, 0xA000, fun op => .ldI (fieldNNN op)⟩]

/-- The opcode map in the decoder's order, most specific mask first (R94, R96). -/
def rows : List Row := rowsExact ++ rowsFunction ++ rowsRegister ++ rowsMajor

/-- Decoding: the first row that matches, and the default no-op when none does (R94, R98, R123). Total: no word is
rejected (R98), and the meaning depends on the word alone (R90). -/
def decode (op : Word) : Instr :=
  match rows.find? (·.hits op) with
  | some r => r.build op
  | none => .unrecognised op

/-- Why bytes do not decode: an instruction needs two bytes (R90). No pair of bytes is rejected. -/
inductive DecodeError where
  | tooFewBytes
  deriving DecidableEq, Repr

/-- The decoder on bytes in ascending address order, with the bytes it leaves (R64, R90). -/
def decodeBytes : List Byte → Except DecodeError (Instr × List Byte)
  | hi :: lo :: rest => .ok (decode (wordOfBytes hi lo), rest)
  | [_] | [] => .error .tooFewBytes

/-- Format A: major opcode in bits 15:12, nnn in bits 11:0 (R92). -/
def formatA (major : BitVec 4) (nnn : Addr) : Word := major.setWidth 16 <<< 12 ||| nnn.setWidth 16

/-- Format K: major opcode in bits 15:12, x in bits 11:8, kk in bits 7:0 (R92). -/
def formatK (major : BitVec 4) (x : Reg) (kk : Byte) : Word :=
  major.setWidth 16 <<< 12 ||| x.setWidth 16 <<< 8 ||| kk.setWidth 16

/-- Format R: major opcode in bits 15:12, x in bits 11:8, y in bits 7:4, function in bits 3:0 (R92). -/
def formatR (major : BitVec 4) (x y : Reg) (fn : BitVec 4) : Word :=
  major.setWidth 16 <<< 12 ||| x.setWidth 16 <<< 8 ||| y.setWidth 16 <<< 4 ||| fn.setWidth 16

/-- Format F: major opcode 0xF, x in bits 11:8, function byte in bits 7:0 (R92). -/
def formatF (x : Reg) (fn : Byte) : Word := formatK 0xF x fn

/-- The word of an instruction: its format with its row's literal digits (R92, R96). -/
def encode : Instr → Word
  | .cls => 0x00E0
  | .ret => 0x00EE
  | .jp nnn => formatA 0x1 nnn
  | .call nnn => formatA 0x2 nnn
  | .seByte x kk => formatK 0x3 x kk
  | .sneByte x kk => formatK 0x4 x kk
  | .seReg x y => formatR 0x5 x y 0x0
  | .ldByte x kk => formatK 0x6 x kk
  | .addByte x kk => formatK 0x7 x kk
  | .ldReg x y => formatR 0x8 x y 0x0
  | .orReg x y => formatR 0x8 x y 0x1
  | .andReg x y => formatR 0x8 x y 0x2
  | .xorReg x y => formatR 0x8 x y 0x3
  | .ldI nnn => formatA 0xA nnn
  | .ldFromDt x => formatF x 0x07
  | .ldToSt x => formatF x 0x18
  | .addI x => formatF x 0x1E
  | .storeRegs x => formatF x 0x55
  | .loadRegs x => formatF x 0x65
  | .unrecognised op => op

/-- The bytes of an instruction in ascending address order (R64). -/
def encodeBytes (i : Instr) : List Byte := [highByte (encode i), lowByte (encode i)]

/-- The two bytes of a table word: bits of `w` at `nbits` and above count as 0, and an instruction has no bits above
the sixteenth (spec/opcode_table.json, `encoding` and `fields`: bit 0 least significant). -/
def tableWordBytes (nbits w : Nat) : List Byte :=
  let op := BitVec.ofNat 16 (w % 2 ^ nbits)
  [highByte op, lowByte op]

/-- What the decoder reads from a table row's word, laid out in memory order. -/
def decodeTableWord (nbits w : Nat) : Option Instr :=
  match decodeBytes (tableWordBytes nbits w) with
  | .ok (i, _) => some i
  | .error _ => none

end Sys2Proof
end

