-- ==== Sys2Proof/Config.lean ====
section
/-! DEFINITION. The fixed parameters of the block (spec/00_scope.md R7). The OPEN parameters of R8 are no
constants here: ORIGIN and ENTRY are operands of the host's boot operations (Machine/HostPort.lean), STEP_RATE is the
order of the actions in a state's agenda, and END_OF_RUN is a predicate (Safety.lean). The spec leaves no value of an
instruction open, so there is no free value. -/

namespace Sys2Proof.Config

/-- `MEM_SIZE`: addresses 0x000 to 0xFFF (R7). -/
abbrev memSize : Nat := 4096

/-- `NREG`: V0 to VF (R7). -/
abbrev regCount : Nat := 16

/-- `STACK_DEPTH` (R7). -/
abbrev stackDepth : Nat := 16

/-- `DISP_CELLS`: 64 times 32 one-byte cells (R7). -/
abbrev dispCells : Nat := 64 * 32

/-- `INSTR_BYTES`: every instruction is two bytes (R7). -/
abbrev instrBytes : Nat := 2

end Sys2Proof.Config
end

