-- ==== Sys2Proof/Machine/State.lean ====
section
/-! DEFINITION. The machine's state (spec/10_state.md R20: every element, and nothing else is state of the block), the
actions of the three agents (spec/00_scope.md R5), the named updates of one field each, the state after reset (R38)
and the reasons a step can stop. -/

namespace Sys2Proof.Machine

/-- Byte cells by address in canonical form: addresses strictly rising, no cell equal to 0x00, which is what an
unlisted address reads as (R31, R32: reset value 0x00 in every cell). It holds `MEM` and `DISP`. -/
abbrev Memory := List Host.Cell

/-- The engine mode `MODE` (R33). Code 3 is never produced, so it has no constructor. -/
inductive Mode where
  /-- No step unless the host issues a single-step command. -/
  | stopped
  /-- Steps one after another. -/
  | running
  /-- A fatal condition occurred: no step, and only reset leaves this mode (R268). -/
  | faulted
  deriving DecidableEq, Repr

/-- The cause held in `FCAUSE` (spec/60_exceptions.md R261). Code 7 is never produced, so it has no constructor. -/
inductive Cause where
  /-- 0: no fault since reset. -/
  | none
  /-- 1: CALL with `SP = 16`. -/
  | stackOverflow
  /-- 2: RET with `SP = 0`. -/
  | stackUnderflow
  /-- 3: CALL with `nnn > 0xFFF`, which cannot happen (R143). -/
  | callTargetRange
  /-- 4: Fx55 with `I + x > 0xFFF`. -/
  | memWriteBounds
  /-- 5: Fx65 with `I + x > 0xFFF`. -/
  | memReadBounds
  /-- 6: fetch with `PC + 1 > 0xFFF`. -/
  | fetchBounds
  deriving DecidableEq, Repr

/-- The host port's operations (spec/48_host_port_operations.md R220 to R241, spec/47_timer_engine.md R203, R204),
with operand widths as R220, R225 and decision D25 give them. -/
inductive PortOp where
  /-- `reset()` (R241). -/
  | reset
  /-- `start()` of the timer engine (R203). -/
  | start
  /-- `stop()` of the timer engine (R204). -/
  | stop
  /-- `readTRUN()` (R234). -/
  | readTRUN
  /-- `run()` (R237). -/
  | run
  /-- `stopEngine()` (R238). -/
  | stopEngine
  /-- `stepOnce()` (R239). -/
  | stepOnce
  /-- `readStatus()` (R240). -/
  | readStatus
  /-- `readBytes(addr, length)` (R220). -/
  | readBytes (addr length : Word)
  /-- `writeBytes(addr, bytes)` (R221). -/
  | writeBytes (addr : Word) (bytes : List Byte)
  /-- `readRegister(index)` (R225). -/
  | readRegister (index : Byte)
  /-- `writeRegister(index, value)` (R226). -/
  | writeRegister (index value : Byte)
  /-- `readRegisters()` (R227). -/
  | readRegisters
  /-- `writeRegisters(values)` (R228). -/
  | writeRegisters (values : Vector Byte 16)
  /-- `readPC()` (R229). -/
  | readPC
  /-- `writePC(value)` (R229). -/
  | writePC (value : Word)
  /-- `readSP()` (R230). -/
  | readSP
  /-- `writeSP(value)` (R230): the rule gives the operand no width, so any natural number. -/
  | writeSP (value : Nat)
  /-- `readI()` (R231). -/
  | readI
  /-- `writeI(value)` (R231). -/
  | writeI (value : Word)
  /-- `readStackFrame()` (R232). -/
  | readStackFrame
  /-- `writeStackFrame(values)` (R232). -/
  | writeStackFrame (values : Vector Word 16)
  /-- `readDT()` (R233). -/
  | readDT
  /-- `writeDT(value)` (R233). -/
  | writeDT (value : Byte)
  /-- `readST()` (R233). -/
  | readST
  /-- `writeST(value)` (R233). -/
  | writeST (value : Byte)
  /-- `readDisplay()` (R236). -/
  | readDisplay
  deriving DecidableEq, Repr

/-- One atomic action of one of the three agents (R5, R75). -/
inductive Action where
  /-- The execution agent's turn: a step when `MODE = RUNNING`, else nothing (R120). -/
  | engine
  /-- A tick of the timer agent (R200). -/
  | tick
  /-- A transaction of the host port (R242). -/
  | port (op : PortOp)
  deriving DecidableEq, Repr

/-- What a port transaction delivers to the host. -/
inductive Reply where
  /-- No value: a write or a command, a rejected register read (R225), and the value at reset. -/
  | noValue
  /-- One bit (`readTRUN`). -/
  | bit (b : Bool)
  /-- One byte (`readRegister`, `readDT`, `readST`). -/
  | byte (b : Byte)
  /-- A sequence of bytes (`readBytes`, `readDisplay`). -/
  | bytes (bs : List Byte)
  /-- A 16-bit value (`readPC`, `readI`). -/
  | word (w : Word)
  /-- A 5-bit value (`readSP`). -/
  | pointer (p : BitVec 5)
  /-- The whole register file, by value (`readRegisters`, R227). -/
  | registers (vs : Vector Byte 16)
  /-- The whole call stack, by value (`readStackFrame`, R232). -/
  | frame (ws : Vector Word 16)
  /-- The four status registers (`readStatus`, R240). -/
  | status (mode : Mode) (cause : Cause) (addr opc : Word)
  /-- The outcome of `stepOnce` when the step completed (R239). -/
  | stepCompleted
  /-- The outcome of `stepOnce` when the step faulted (R239, R262). -/
  | stepFaulted (cause : Cause) (addr opc : Word)
  deriving DecidableEq, Repr

/-- The state: the fourteen elements of R20, then the model's own `agenda` and `reply`. -/
structure State where
  /-- `MEM`, 4096 bytes (R31). -/
  mem : Memory
  /-- `V0` to `VF` (R21). -/
  v : Vector Byte 16
  /-- The index register `I` (R23). -/
  i : Word
  /-- The program counter `PC` (R24). -/
  pc : Word
  /-- The stack pointer `SP`: 5 bits, legal values 0 to 16 (R28). -/
  sp : BitVec 5
  /-- The call stack `STACK` (R29). -/
  stack : Vector Word 16
  /-- The delay timer `DT` (R30). -/
  dt : Byte
  /-- The sound timer `ST` (R30). -/
  st : Byte
  /-- The display buffer `DISP`, 2048 cells (R32). -/
  disp : Memory
  /-- `TRUN`: the timer engine is started (R35). -/
  trun : Bool
  /-- `MODE` (R33). -/
  mode : Mode
  /-- `FCAUSE` (R34). -/
  fcause : Cause
  /-- `FADDR` (R34). -/
  faddr : Word
  /-- `FOPC` (R34). -/
  fopc : Word
  /-- The model's own (log entry 1): the actions that come next in the total order of R72, oldest first. -/
  agenda : List Action
  /-- The model's own (log entry 2): what the most recent port transaction delivered. -/
  reply : Reply
  deriving DecidableEq, Repr

/-- The state with another `MEM`. -/
def State.withMem (m : Memory) (s : State) : State := { s with mem := m }

/-- The state with another register file. -/
def State.withV (vs : Vector Byte 16) (s : State) : State := { s with v := vs }

/-- The state with another `I`. -/
def State.withI (w : Word) (s : State) : State := { s with i := w }

/-- The state with another `PC`. -/
def State.withPC (w : Word) (s : State) : State := { s with pc := w }

/-- The state with another `SP`. -/
def State.withSP (p : BitVec 5) (s : State) : State := { s with sp := p }

/-- The state with another `STACK`. -/
def State.withStack (ws : Vector Word 16) (s : State) : State := { s with stack := ws }

/-- The state with another `DT`. -/
def State.withDT (b : Byte) (s : State) : State := { s with dt := b }

/-- The state with another `ST`. -/
def State.withST (b : Byte) (s : State) : State := { s with st := b }

/-- The state with another `DISP`. -/
def State.withDisp (m : Memory) (s : State) : State := { s with disp := m }

/-- The state with another `TRUN`. -/
def State.withTrun (b : Bool) (s : State) : State := { s with trun := b }

/-- The state with another `MODE`. -/
def State.withMode (m : Mode) (s : State) : State := { s with mode := m }

/-- The state with another fault report: `FCAUSE`, `FADDR`, `FOPC`. -/
def State.withReport (c : Cause) (addr opc : Word) (s : State) : State :=
  { s with fcause := c, faddr := addr, fopc := opc }

/-- The state with another agenda. -/
def State.withAgenda (as : List Action) (s : State) : State := { s with agenda := as }

/-- The state with another reply. -/
def State.withReply (r : Reply) (s : State) : State := { s with reply := r }

/-- The state after reset: every element zero, the engine STOPPED, the timer stopped (R38, R300). -/
def State.reset : State where
  mem := []
  v := Vector.replicate 16 0
  i := 0
  pc := 0
  sp := 0
  stack := Vector.replicate 16 0
  dt := 0
  st := 0
  disp := []
  trun := false
  mode := .stopped
  fcause := .none
  faddr := 0
  fopc := 0
  agenda := []
  reply := .noValue

/-- Why the model stops where the block's behaviour is not given. The block's own fatal conditions are no constructors
here: taking one is a next state with `MODE = FAULTED` (R263, R264). -/
inductive Fault where
  /-- Raised by RET when `SP` holds 17 to 31, a value no agent ever produces (R28, R39): the stack slot `SP - 1` does
  not exist. Safe: the model stops where the spec gives no slot, and no state reachable from reset gets there. -/
  | stackSlotMissing
  deriving DecidableEq, Repr

/-- Why the model gives an instruction no meaning. -/
inductive Refusal where
  /-- Raised only by an arm of `exec` whose instruction has no meaning yet, with its mnemonic. Safe: nothing follows
  from a refused step. -/
  | notModelled (mnemonic : String)
  deriving DecidableEq, Repr

/-- What a step, a meaning or a turn answers. -/
abbrev Result := Host.Outcome State Fault Refusal

end Sys2Proof.Machine
end

