-- ==== Sys2Proof/Machine/Ops.lean ====
section
/-! DEFINITION. The named operations over memory, the display, the call stack, the program counter and the fault report:
single-cell and block access (spec/20_memory.md), fetch (spec/40_step_cycle.md R121, R122), push and pop
(spec/41_display_and_control_transfer.md), taking a fault (spec/60_exceptions.md R263, R264) and reset, the only way
out of a fault (R268, R300). -/

namespace Sys2Proof.Machine

/-! ## Cells in canonical form -/

/-- The byte at address `a`; an unlisted address reads as 0x00 (R31, R38). -/
def Memory.read : Memory → Nat → Byte
  | [], _ => 0
  | (k, b) :: rest, a => if k = a then b else Memory.read rest a

/-- Puts byte `b` at address `a`, keeping the addresses rising and no cell at 0x00. -/
def Memory.put : Memory → Nat → Byte → Memory
  | [], a, b => if b = 0 then [] else [(a, b)]
  | (k, c) :: rest, a, b =>
    if k < a then (k, c) :: Memory.put rest a b
    else
      let tail := if k = a then rest else (k, c) :: rest
      if b = 0 then tail else (a, b) :: tail

/-- `MEM[a] <- b`; a write outside [0, 4096) never touches the array (R31, R60). -/
def Memory.write (m : Memory) (a : Nat) (b : Byte) : Memory :=
  if a < Config.memSize then m.put a b else m

/-- The addresses are at least `lo`, strictly rising and below `size`, and no cell holds 0x00. -/
def Memory.wfFrom (size : Nat) : Nat → Memory → Bool
  | _, [] => true
  | lo, (k, b) :: rest => decide (lo ≤ k) && decide (k < size) && decide (b ≠ 0) && Memory.wfFrom size (k + 1) rest

/-- The canonical form of `MEM`: equal memories are equal lists. -/
def Memory.wf (m : Memory) : Bool := m.wfFrom Config.memSize 0

/-- The `n` bytes from address `a` upwards (R65, R220). -/
def Memory.readBlock (m : Memory) (a : Nat) : Nat → List Byte
  | 0 => []
  | n + 1 => m.read a :: m.readBlock (a + 1) n

/-- Writes a sequence of bytes from address `a` upwards (R65, R221). -/
def Memory.writeBlock (m : Memory) (a : Nat) : List Byte → Memory
  | [] => m
  | b :: bs => (m.write a b).writeBlock (a + 1) bs

/-- The checked read of one cell, `MemRead(addr, 1)`: no value outside [0, 4096), never an aliased cell (R10, R60, R61). -/
def Memory.checkedByte (m : Memory) (a : Nat) : Option Byte :=
  if a < Config.memSize then some (m.read a) else none

/-- The checked read of two cells, high byte first, `MemRead(addr, 2)`: both addresses are checked (R10, R61, R64). -/
def Memory.checkedWord (m : Memory) (a : Nat) : Option Word :=
  match m.checkedByte a, m.checkedByte (a + 1) with
  | some hi, some lo => some (wordOfBytes hi lo)
  | _, _ => none

/-! ## Program counter and fetch -/

/-- `PC <- PC + 2`, the advance of a fetch and of a taken skip (R25, R122). -/
def State.advance (s : State) : State := s.withPC (s.pc + 2)

/-- The word at `PC`, or none when `PC + 1 > 0xFFF` (R121, R122). -/
def fetchWord (s : State) : Option Word := s.mem.checkedWord s.pc.toNat

/-- Where the instruction now executing was fetched from: during execute `PC = addr0 + 2` (R11, R24). -/
def State.addr0 (s : State) : Word := s.pc - 2

/-! ## Call stack -/

/-- `STACK[SP] <- PC`, then `SP <- SP + 1` (R143). -/
def pushReturn (s : State) : State :=
  (s.withStack (s.stack.setIfInBounds s.sp.toNat s.pc)).withSP (s.sp + 1)

/-- `SP <- SP - 1`, then `PC <- STACK[SP]`, the entry left as it is (R141); no state where that slot does not exist. -/
def popReturn (s : State) : Option State :=
  match s.stack[(s.sp - 1).toNat]? with
  | some w => some ((s.withSP (s.sp - 1)).withPC w)
  | none => none

/-! ## Display -/

/-- Every cell of `DISP` becomes 0x00, which in canonical form is the empty list (R140). -/
def clearDisplay (s : State) : State := s.withDisp []

/-! ## Faults and reset -/

/-- `MODE <- FAULTED`, `FCAUSE <- cause`, `FADDR`, `FOPC`, and nothing else (R263, R264). -/
def takeFault (c : Cause) (addr opc : Word) (s : State) : State :=
  (s.withReport c addr opc).withMode .faulted

/-- An execute-stage fault of instruction `ins`: `FADDR <- addr0`, `FOPC <- op`, `PC` stays `addr0 + 2` (R263). -/
def executeFault (c : Cause) (ins : Instr) (s : State) : State := takeFault c s.addr0 (encode ins) s

/-- A fetch-stage fault: `FADDR <- PC`, `FOPC <- 0x0000`, `PC` is not advanced (R264). -/
def fetchFault (s : State) : State := takeFault .fetchBounds s.pc 0 s

/-- Reset: every element at its reset value (R300). It is the one way out of FAULTED; there is no other return from a
fault (R268, R241). The actions still to come in the total order are not state of the block (R20) and stay. -/
def resetBlock (s : State) : State := State.reset.withAgenda s.agenda

/-- The code of `MODE` (R33). -/
def Mode.code : Mode → BitVec 2
  | .stopped => 0
  | .running => 1
  | .faulted => 2

/-- The code of `FCAUSE` (R261). -/
def Cause.code : Cause → BitVec 3
  | .none => 0
  | .stackOverflow => 1
  | .stackUnderflow => 2
  | .callTargetRange => 3
  | .memWriteBounds => 4
  | .memReadBounds => 5
  | .fetchBounds => 6

/-- Applies `f` to a next state and passes a stop on. -/
def mapNext (f : State → State) : Result → Result
  | .next s => .next (f s)
  | .fault r => .fault r
  | .refused r => .refused r

end Sys2Proof.Machine
end

