-- ==== Sys2Proof/Machine/Operands.lean ====
section
/-! DEFINITION. Operand forms: general registers by a 4-bit index (spec/10_state.md R21), the address immediate
(spec/30_encoding.md R93) and the one data addressing mode, the block from `I` (spec/46_register_memory_transfer.md R193). -/

namespace Sys2Proof.Machine

/-- `V[x]` (R21). -/
def State.reg (s : State) (x : Reg) : Byte := s.v[x.toNat]'x.isLt

/-- `V[x] <- b` (R21). -/
def State.setReg (x : Reg) (b : Byte) (s : State) : State := s.withV (s.v.set x.toNat b x.isLt)

/-- `zext_16(nnn)` (R93). -/
def zextAddr (nnn : Addr) : Word := nnn.setWidth 16

/-- `zext_16(b)` (R10, R171). -/
def zextByte (b : Byte) : Word := b.setWidth 16

/-- `I + x > 0xFFF`, a sum of natural numbers with no wrap: the block `MEM[I..I+x]` leaves memory (R62). -/
def blockOutside (x : Reg) (s : State) : Bool := decide (Config.memSize ≤ s.i.toNat + x.toNat)

/-- The values of `V[0]`, ..., `V[x]` in ascending order (R65, R190). -/
def registersUpTo (x : Reg) (s : State) : List Byte := s.v.toList.take (x.toNat + 1)

/-- `MEM[I + k] <- V[k]` for `k = 0..x` (R190). -/
def storeBlock (x : Reg) (s : State) : State :=
  s.withMem (s.mem.writeBlock s.i.toNat (registersUpTo x s))

/-- `V[k] <- MEM[I + k]` for `k = 0..x` (R191). -/
def loadBlock (x : Reg) (s : State) : State :=
  s.withV (Vector.ofFn fun k => if k.val ≤ x.toNat then s.mem.read (s.i.toNat + k.val) else s.v[k])

end Sys2Proof.Machine
end

