-- ==== Sys2Proof/Machine/Flags.lean ====
section
/-! DEFINITION. The machine has no status flags, condition codes or predicate registers (spec/10_state.md R27), so no flag
is computed anywhere. What stands here is what other machines would hang flags on: the two truncating sums, which record
no carry or overflow (spec/43_load_and_alu.md R166), and the condition of a skip, which acts on PC at once (R27). -/

namespace Sys2Proof.Machine

/-- `trunc_8(a + b)`: no carry is recorded, VF is not touched (R161, R166). -/
def sum8 (a b : Byte) : Byte := a + b

/-- `trunc_16(w + zext_16(b))`: no carry is recorded, VF is not touched (R166, R171). -/
def sum16 (w : Word) (b : Byte) : Word := w + zextByte b

/-- A skip: `PC <- PC + 2` when the condition holds, else nothing (R150 to R152). -/
def skipIf (condition : Bool) (s : State) : State := if condition then s.advance else s

end Sys2Proof.Machine
end

