-- ==== Sys2Proof/Machine/Control.lean ====
section
/-! DEFINITION. CLS, RET, JP, CALL (spec/41_display_and_control_transfer.md). Every meaning starts from the state after the
fetch, in which `PC = addr0 + 2` (spec/00_scope.md R11). -/

namespace Sys2Proof.Machine

/-- `00E0` CLS: every cell of DISP to 0 (R140). -/
def execCls (s : State) : Result := .next (clearDisplay s)

/-- `00EE` RET: fault on an empty stack, else pop into `PC`, unchecked (R141). -/
def execRet (s : State) : Result :=
  if s.sp = 0 then .next (executeFault .stackUnderflow .ret s)
  else
    match popReturn s with
    | some t => .next t
    | none => .fault .stackSlotMissing

/-- `1nnn` JP: `PC <- zext_16(nnn)`, unchecked (R142). -/
def execJp (nnn : Addr) (s : State) : Result := .next (s.withPC (zextAddr nnn))

/-- `2nnn` CALL: fault on a full stack, then on a target outside memory (which no `nnn` is), else push and jump
(R143, R265). -/
def execCall (nnn : Addr) (s : State) : Result :=
  if 16 ≤ s.sp.toNat then .next (executeFault .stackOverflow (.call nnn) s)
  else if 0xFFF < (zextAddr nnn).toNat then .next (executeFault .callTargetRange (.call nnn) s)
  else .next ((pushReturn s).withPC (zextAddr nnn))

end Sys2Proof.Machine
end

