-- ==== Sys2Proof/Machine/Index.lean ====
section
/-! DEFINITION. Index register instructions (spec/44_index_register.md), from the state after the fetch
(spec/00_scope.md R11). -/

namespace Sys2Proof.Machine

/-- `Annn` LD I, addr: `I <- zext_16(nnn)` (R170). -/
def execLdI (nnn : Addr) (s : State) : Result := .next (s.withI (zextAddr nnn))

/-- `Fx1E` ADD I, Vx: `I <- trunc_16(I + zext_16(V[x]))`, no flag and no range check (R171). -/
def execAddI (x : Reg) (s : State) : Result := .next (s.withI (sum16 s.i (s.reg x)))

end Sys2Proof.Machine
end

