-- ==== Sys2Proof/Machine/NoOp.lean ====
section
/-! DEFINITION. The default no-op of every unrecognised word (spec/40_step_cycle.md R126), from the state after the fetch. -/

namespace Sys2Proof.Machine

/-- Any word outside the 19 patterns: the fetch has advanced `PC`, and execute does nothing (R98, R126). -/
def execUnrecognised (_op : Word) (s : State) : Result := .next s

end Sys2Proof.Machine
end

