-- ==== Sys2Proof/Machine/Skip.lean ====
section
/-! DEFINITION. The conditional skips SE and SNE (spec/42_skip.md), from the state after the fetch (spec/00_scope.md R11). -/

namespace Sys2Proof.Machine

/-- `3xkk` SE Vx, byte: skip when `V[x] = kk` (R150). -/
def execSeByte (x : Reg) (kk : Byte) (s : State) : Result := .next (skipIf (s.reg x == kk) s)

/-- `4xkk` SNE Vx, byte: skip when `V[x] != kk` (R151). -/
def execSneByte (x : Reg) (kk : Byte) (s : State) : Result := .next (skipIf (s.reg x != kk) s)

/-- `5xy0` SE Vx, Vy: skip when `V[x] = V[y]` (R152). -/
def execSeReg (x y : Reg) (s : State) : Result := .next (skipIf (s.reg x == s.reg y) s)

end Sys2Proof.Machine
end

