-- ==== Sys2Proof/Machine/TimerAccess.lean ====
section
/-! DEFINITION. Timer access instructions (spec/45_timer_access.md), from the state after the fetch (spec/00_scope.md R11). -/

namespace Sys2Proof.Machine

/-- `Fx07` LD Vx, DT: `V[x] <- DT` (R180). -/
def execLdFromDt (x : Reg) (s : State) : Result := .next (s.setReg x s.dt)

/-- `Fx18` LD ST, Vx: `ST <- V[x]` (R181). -/
def execLdToSt (x : Reg) (s : State) : Result := .next (s.withST (s.reg x))

end Sys2Proof.Machine
end

