-- ==== Sys2Proof/Machine/Transfer.lean ====
section
/-! DEFINITION. Register and memory transfers (spec/46_register_memory_transfer.md), from the state after the fetch
(spec/00_scope.md R11). The block is checked before any byte moves (R62), and `I` is not changed (R192). -/

namespace Sys2Proof.Machine

/-- `Fx55` LD [I], Vx (R190). -/
def execStoreRegs (x : Reg) (s : State) : Result :=
  if blockOutside x s then .next (executeFault .memWriteBounds (.storeRegs x) s) else .next (storeBlock x s)

/-- `Fx65` LD Vx, [I] (R191). -/
def execLoadRegs (x : Reg) (s : State) : Result :=
  if blockOutside x s then .next (executeFault .memReadBounds (.loadRegs x) s) else .next (loadBlock x s)

end Sys2Proof.Machine
end

