-- ==== Sys2Proof/Machine/Timer.lean ====
section
/-! DEFINITION. The timer engine: the tick and its start and stop (spec/47_timer_engine.md). The tick is an event that may
fall between any two other actions (R201); it does not depend on MODE (R202), raises nothing at zero (R207). -/

namespace Sys2Proof.Machine

/-- One down, clamped at a floor of zero (R200). -/
def lower (b : Byte) : Byte := if b = 0 then 0 else b - 1

/-- The tick: both counters in one atomic action when `TRUN = 1`, else nothing (R200). -/
def tick (s : State) : State := if s.trun then (s.withDT (lower s.dt)).withST (lower s.st) else s

/-- `start()`: `TRUN <- 1`, idempotent, DT and ST as they are (R203). -/
def startTimer (s : State) : State := s.withTrun true

/-- `stop()`: `TRUN <- 0`, idempotent, DT and ST as they are (R204). -/
def stopTimer (s : State) : State := s.withTrun false

end Sys2Proof.Machine
end

