-- ==== Sys2Proof/Machine/HostPort.lean ====
section
/-! DEFINITION. The host port (spec/48_host_port_operations.md): what each operation answers and what it does to the state,
all but `stepOnce`, which needs the execution agent (Machine/Engine.lean). No operation here faults (R224, R260), and each
is permitted in every MODE (R242). The boot order of spec/70_reset_and_hazards.md R303 stands at the end. -/

namespace Sys2Proof.Machine

/-! ## Memory (R220 to R224) -/

/-- `readBytes(addr, length)`, clipped to [0, 4096), the sum a natural number (R220). -/
def portReadBytes (addr length : Word) (s : State) : List Byte :=
  if Config.memSize ≤ addr.toNat then []
  else s.mem.readBlock addr.toNat (min (addr.toNat + length.toNat) Config.memSize - addr.toNat)

/-- `writeBytes(addr, bytes)`, clipped to [0, 4096) (R221). -/
def portWriteBytes (addr : Word) (bytes : List Byte) (s : State) : State :=
  if Config.memSize ≤ addr.toNat then s
  else s.withMem (s.mem.writeBlock addr.toNat (bytes.take (Config.memSize - addr.toNat)))

/-! ## Registers, SP, display (R225 to R236) -/

/-- `readRegister(index)`: an index above 15 delivers no value (R225). -/
def portReadRegister (index : Byte) (s : State) : Reply :=
  match s.v[index.toNat]? with
  | some b => .byte b
  | none => .noValue

/-- `writeRegister(index, value)`: an index above 15 writes nothing (R226). -/
def portWriteRegister (index value : Byte) (s : State) : State :=
  if index.toNat < Config.regCount then s.withV (s.v.setIfInBounds index.toNat value) else s

/-- `writeSP(value)`: a value above 16 is refused (R230). -/
def portWriteSP (value : Nat) (s : State) : State :=
  if value ≤ Config.stackDepth then s.withSP (BitVec.ofNat 5 value) else s

/-- `readDisplay()`: the 2048 cells of DISP (R236). -/
def portReadDisplay (s : State) : List Byte := Memory.readBlock s.disp 0 Config.dispCells

/-! ## Engine control (R237, R238) -/

/-- `run()`: STOPPED becomes RUNNING, TRUN is not touched (R237). -/
def portRun (s : State) : State := if s.mode = .stopped then s.withMode .running else s

/-- `stopEngine()`: RUNNING becomes STOPPED, TRUN is not touched (R238). -/
def portStopEngine (s : State) : State := if s.mode = .running then s.withMode .stopped else s

/-! ## The port as a whole (R244) -/

/-- What an operation does to the block. `stepOnce` is the execution agent's and stands in Machine/Engine.lean. -/
def portEffect : PortOp → State → State
  | .reset, s => resetBlock s
  | .start, s => startTimer s
  | .stop, s => stopTimer s
  | .run, s => portRun s
  | .stopEngine, s => portStopEngine s
  | .writeBytes addr bytes, s => portWriteBytes addr bytes s
  | .writeRegister index value, s => portWriteRegister index value s
  | .writeRegisters values, s => s.withV values
  | .writePC value, s => s.withPC value
  | .writeSP value, s => portWriteSP value s
  | .writeI value, s => s.withI value
  | .writeStackFrame values, s => s.withStack values
  | .writeDT value, s => s.withDT value
  | .writeST value, s => s.withST value
  | .stepOnce, s => s
  | .readTRUN, s | .readStatus, s | .readBytes _ _, s | .readRegister _, s | .readRegisters, s | .readPC, s
  | .readSP, s | .readI, s | .readStackFrame, s | .readDT, s | .readST, s | .readDisplay, s => s

/-- What an operation delivers: a snapshot at its point of the total order (R227, R243). -/
def portAnswer : PortOp → State → Reply
  | .readTRUN, s => .bit s.trun
  | .readStatus, s => .status s.mode s.fcause s.faddr s.fopc
  | .readBytes addr length, s => .bytes (portReadBytes addr length s)
  | .readRegister index, s => portReadRegister index s
  | .readRegisters, s => .registers s.v
  | .readPC, s => .word s.pc
  | .readSP, s => .pointer s.sp
  | .readI, s => .word s.i
  | .readStackFrame, s => .frame s.stack
  | .readDT, s => .byte s.dt
  | .readST, s => .byte s.st
  | .readDisplay, s => .bytes (portReadDisplay s)
  | .reset, _ | .start, _ | .stop, _ | .run, _ | .stopEngine, _ | .stepOnce, _ | .writeBytes _ _, _
  | .writeRegister _ _, _ | .writeRegisters _, _ | .writePC _, _ | .writeSP _, _ | .writeI _, _
  | .writeStackFrame _, _ | .writeDT _, _ | .writeST _, _ => .noValue

/-- One port transaction other than `stepOnce`, an atomic action (R75, R242). -/
def portTransaction (op : PortOp) (s : State) : State := (portEffect op s).withReply (portAnswer op s)

/-! ## Boot -/

/-- What the host does before a program runs, in the order of R303: reset, load the image at ORIGIN, set PC to ENTRY,
start the timer if it is wanted, run. ORIGIN and ENTRY are the OPEN parameters of R8. -/
def bootActions (origin entry : Word) (image : List Byte) (timer : Bool) : List Action :=
  [.port .reset, .port (.writeBytes origin image), .port (.writePC entry)]
    ++ (if timer then [.port .start] else []) ++ [.port .run]

end Sys2Proof.Machine
end

