-- ==== Sys2Proof/Machine/Engine.lean ====
section
/-! DEFINITION. The execution agent's step (spec/40_step_cycle.md R120 to R125), `stepOnce`
(spec/48_host_port_operations.md R239), and whose turn it is: the agenda holds the next actions of the three agents in
the total order of spec/20_memory.md R72, and when it is empty the execution agent has its turn. -/

namespace Sys2Proof.Machine

/-- Fetch, decode, execute as one atomic action: the bounds check first, then `PC <- addr0 + 2` before decode and
execute (R121, R122, R125). -/
def instructionStep (s : State) : Result :=
  match fetchWord s with
  | none => .next (fetchFault s)
  | some op => exec (decode op) s.advance

/-- The execution agent's turn: a step when `MODE = RUNNING`, nothing when STOPPED or FAULTED (R120). -/
def engineTurn (s : State) : Result :=
  match s.mode with
  | .running => instructionStep s
  | .stopped => .next s
  | .faulted => .next s

/-- The outcome `stepOnce` completes with, read from the state its step left (R239, R262). -/
def stepOutcome (s : State) : Reply :=
  if s.mode = .faulted then .stepFaulted s.fcause s.faddr s.fopc else .stepCompleted

/-- `stepOnce()`: one step when STOPPED, which then stays STOPPED or becomes FAULTED; else nothing (R239). -/
def stepOnce (s : State) : Result :=
  if s.mode = .stopped then mapNext (fun t => t.withReply (stepOutcome t)) (instructionStep s)
  else .next (s.withReply .noValue)

/-- One action of one agent (R5, R75). -/
def perform : Action → State → Result
  | .engine, s => engineTurn s
  | .tick, s => .next (tick s)
  | .port .stepOnce, s => stepOnce s
  | .port op, s => .next (portTransaction op s)

/-- The next action of the total order: the agenda's first, or the execution agent's turn when it is empty (R72). -/
def nextAction (s : State) : Result :=
  match s.agenda with
  | [] => engineTurn s
  | a :: rest => perform a (s.withAgenda rest)

/-- The state about to fetch a table word's bytes as its very next action: the word at `PC` (at address 0 when `PC`
cannot be fetched from, R121), the engine RUNNING, nothing due before it. -/
def placeWord (nbits w : Nat) (s : State) : State :=
  let at0 := if s.pc.toNat + 1 < Config.memSize then s else s.withPC 0
  ((at0.withMem (at0.mem.writeBlock at0.pc.toNat (tableWordBytes nbits w))).withMode .running).withAgenda []

end Sys2Proof.Machine
end

