-- ==== Sys2Proof/Machine/Step.lean ====
section
/-! DEFINITION. One step of the machine: the next action of the total order of the three agents' actions
(spec/20_memory.md R72, R75), and the placing of one instruction where the next step fetches it. -/

namespace Sys2Proof.Machine

/-- One atomic action of the block. With `MODE = RUNNING` and no tick or host operation due first, it is one
instruction step. -/
def step (s : State) : Host.Outcome State Fault Refusal := nextAction s

/-- `s` with the instruction of a table word placed where `step` fetches next, so that the very next step runs it. -/
def State.withFetchWord (s : State) (nbits w : Nat) : State := placeWord nbits w s

end Sys2Proof.Machine
end

