-- ==== Sys2Proof/Safety.lean ====
section
/-! DEFINITION. The terms claims use: the invariant of spec/10_state.md R39 with the canonical forms and the fault report
of spec/60_exceptions.md R261, which part of the state two states agree on, and the recommended END_OF_RUN condition
(spec/70_reset_and_hazards.md R311). -/

namespace Sys2Proof.Machine

/-- `MODE`, `FCAUSE`, `FADDR`, `FOPC` agree with R261's table: FAULTED exactly when there is a cause (R39 (d)), zero
FADDR and FOPC without one, each cause with the word that raises it and an address that could be fetched from, a fetch
fault with one that could not, and never the unreachable cause 3. -/
def reportOk (s : State) : Bool :=
  match s.fcause with
  | .none => s.mode != .faulted && s.faddr == 0 && s.fopc == 0
  | .stackOverflow => s.mode == .faulted && decide (s.faddr.toNat ≤ 0xFFE) && s.fopc &&& 0xF000 == 0x2000
  | .stackUnderflow => s.mode == .faulted && decide (s.faddr.toNat ≤ 0xFFE) && s.fopc == 0x00EE
  | .callTargetRange => false
  | .memWriteBounds => s.mode == .faulted && decide (s.faddr.toNat ≤ 0xFFE) && s.fopc &&& 0xF0FF == 0xF055
  | .memReadBounds => s.mode == .faulted && decide (s.faddr.toNat ≤ 0xFFE) && s.fopc &&& 0xF0FF == 0xF065
  | .fetchBounds => s.mode == .faulted && decide (0xFFF ≤ s.faddr.toNat) && s.fopc == 0

/-- Facts of every state reachable from reset: `SP <= 16` (R39 (a)), every display cell 0, which in canonical form is the
empty list (R39 (b)), the fault report (R39 (c), (d), R261), and memory in canonical form. -/
abbrev State.Inv (s : State) : Prop :=
  s.sp.toNat ≤ 16 ∧ s.mem.wf = true ∧ s.disp = [] ∧ reportOk s = true

/-- The parts of the state a frame speaks of. `own` is the model's own agenda and reply. -/
inductive Part where
  | mem | v | i | pc | sp | stack | dt | st | disp | trun | mode | report | own
  deriving DecidableEq, Repr

/-- Two states agree on a part: every cell read one by one, every register, every entry. -/
def Part.Same (s t : State) : Part → Prop
  | .mem => ∀ a : Nat, t.mem.read a = s.mem.read a
  | .v => ∀ r : Reg, t.reg r = s.reg r
  | .i => t.i = s.i
  | .pc => t.pc = s.pc
  | .sp => t.sp = s.sp
  | .stack => ∀ k : Fin 16, t.stack[k] = s.stack[k]
  | .dt => t.dt = s.dt
  | .st => t.st = s.st
  | .disp => ∀ k : Nat, Memory.read t.disp k = Memory.read s.disp k
  | .trun => t.trun = s.trun
  | .mode => t.mode = s.mode
  | .report => t.fcause = s.fcause ∧ t.faddr = s.faddr ∧ t.fopc = s.fopc
  | .own => t.agenda = s.agenda ∧ t.reply = s.reply

/-- Nothing changed from `s` to `t` but the named parts. -/
def UnchangedBut (changed : List Part) (s t : State) : Prop := ∀ p : Part, p ∉ changed → p.Same s t

/-- What the execute stage of an instruction may write when it does not fault: the columns marked w of the access summary,
less the fetch's own write of PC (R40). -/
def writtenBy : Instr → List Part
  | .cls => [.disp]
  | .ret => [.pc, .sp]
  | .jp _ => [.pc]
  | .call _ => [.pc, .sp, .stack]
  | .seByte _ _ | .sneByte _ _ | .seReg _ _ => [.pc]
  | .ldByte _ _ | .addByte _ _ | .ldReg _ _ | .orReg _ _ | .andReg _ _ | .xorReg _ _ => [.v]
  | .ldI _ | .addI _ => [.i]
  | .ldFromDt _ => [.v]
  | .ldToSt _ => [.st]
  | .storeRegs _ => [.mem]
  | .loadRegs _ => [.v]
  | .unrecognised _ => []

/-- Within those parts, what the access summary does not list stays: the registers other than `Vx` or `V0..Vx`, the cells
outside the `x+1` bytes at `I`, the stack entries other than the one pushed (R40, R143). -/
def KeepsTheRest : Instr → State → State → Prop
  | .call _, s, t => ∀ k : Fin 16, k.val ≠ s.sp.toNat → t.stack[k] = s.stack[k]
  | .ldByte x _, s, t | .addByte x _, s, t | .ldReg x _, s, t | .orReg x _, s, t | .andReg x _, s, t
  | .xorReg x _, s, t | .ldFromDt x, s, t => ∀ r : Reg, r ≠ x → t.reg r = s.reg r
  | .storeRegs x, s, t => ∀ a : Nat, a < s.i.toNat ∨ s.i.toNat + x.toNat < a → t.mem.read a = s.mem.read a
  | .loadRegs x, s, t => ∀ r : Reg, x.toNat < r.toNat → t.reg r = s.reg r
  | .cls, _, _ | .ret, _, _ | .jp _, _, _ | .seByte _ _, _, _ | .sneByte _ _, _, _ | .seReg _ _, _, _
  | .ldI _, _, _ | .addI _, _, _ | .ldToSt _, _, _ | .unrecognised _, _, _ => True

/-- When the execute stage of an instruction raises a cause: the table of R260, less the fetch's. -/
def raises : Instr → Cause → State → Prop
  | .ret, .stackUnderflow, s => s.sp = 0
  | .call _, .stackOverflow, s => 16 ≤ s.sp.toNat
  | .storeRegs x, .memWriteBounds, s => 0xFFF < s.i.toNat + x.toNat
  | .loadRegs x, .memReadBounds, s => 0xFFF < s.i.toNat + x.toNat
  | _, _, _ => False

/-- The recommended END_OF_RUN condition: `PC` is an address at which memory holds a jump to that same address (R311). -/
def atSelfJump (s : State) : Bool := fetchWord s == some (0x1000 ||| s.pc)

end Sys2Proof.Machine
end

