-- ==== Sys2Proof/Certificates/Slice0/Obligations.lean ====
section
/-! DEFINITION. What is claimed of the machine, each statement from the numbered rules of spec/. Statements about `exec` start
from the state after the fetch, in which `PC = addr0 + 2` (spec/00_scope.md R11); statements about `step` start between two
actions. -/

open Sys2Proof Sys2Proof.Machine

namespace Sys2Proof.Machine

/-! ## Words the statements use -/

/-- Every word that matches `mask` and `pattern` decodes to the instruction `build` reads from it (R94, R96). -/
def DecodesAs (mask pattern : Word) (build : Word → Instr) : Prop :=
  ∀ op : Word, op &&& mask = pattern → decode op = build op

/-- From execute-stage state `s`, in which `PC = addr0 + 2` (R11), `t` is the state R263 describes: FAULTED with the cause,
`addr0` and the instruction's word in the report, and nothing else changed, PC among it. -/
def TakesFault (c : Cause) (opc : Word) (s t : State) : Prop :=
  t.mode = .faulted ∧ t.fcause = c ∧ (∀ addr0 : Word, s.pc = addr0 + 2 → t.faddr = addr0) ∧ t.fopc = opc ∧
    UnchangedBut [.mode, .report] s t

/-- The instruction completes from every state, writes `value` to `V[x]` and nothing else. -/
def WritesOnlyRegister (ins : Instr) (x : Reg) (value : State → Byte) : Prop :=
  ∀ s : State, ∃ t : State, exec ins s = .next t ∧ t.reg x = value s ∧ (∀ r : Reg, r ≠ x → t.reg r = s.reg r) ∧
    UnchangedBut [.v] s t

/-- The instruction completes from every state, adds 2 to PC when `condition` holds, and writes nothing else. -/
def SkipsWhen (ins : Instr) (condition : State → Prop) : Prop :=
  ∀ s : State, ∃ t : State, exec ins s = .next t ∧ (condition s → t.pc = s.pc + 2) ∧
    (¬ condition s → t.pc = s.pc) ∧ UnchangedBut [.pc] s t

/-- When the port operation is the next action, the step completes it: its effect holds of the state after and only the
parts named change. That it leaves the rest of the agenda to come and puts what it delivers in `reply` is the model's own
form of the schedule and of the port's output (log entries 1 and 2). -/
def PortDoes (op : PortOp) (s : State) (changed : List Part) (reply : Reply) (effect : State → Prop) : Prop :=
  ∀ rest : List Action, ∃ t : State, step (s.withAgenda (.port op :: rest)) = .next t ∧ t.agenda = rest ∧
    t.reply = reply ∧ effect t ∧ UnchangedBut (.own :: changed) s t

/-- The instruction names VF as its destination, or is the block load that reaches VF (R22). -/
def namesVF : Instr → Bool
  | .ldByte x _ | .addByte x _ | .ldReg x _ | .orReg x _ | .andReg x _ | .xorReg x _ | .ldFromDt x
  | .loadRegs x => x == 15
  | _ => false

/-- RUNNING with no tick or host operation due first: the next action is an instruction step. -/
def AboutToStep (s : State) : Prop := s.mode = .running ∧ s.agenda = []

end Sys2Proof.Machine

/-! ## Reset and the invariant -/

/-- R38: after reset every element of state is zero, the engine STOPPED, the timer stopped. -/
def Obligations.ResetLeavesEverythingZero : Prop :=
  (∀ a : Nat, State.reset.mem.read a = 0) ∧ (∀ r : Reg, State.reset.reg r = 0) ∧ State.reset.i = 0 ∧
  State.reset.pc = 0 ∧ State.reset.sp = 0 ∧ (∀ k : Fin 16, State.reset.stack[k] = 0) ∧ State.reset.dt = 0 ∧
  State.reset.st = 0 ∧ (∀ k : Nat, Memory.read State.reset.disp k = 0) ∧ State.reset.trun = false ∧
  State.reset.mode = .stopped ∧ State.reset.mode.code = 0 ∧ State.reset.fcause = .none ∧
  State.reset.fcause.code = 0 ∧ State.reset.faddr = 0 ∧ State.reset.fopc = 0

/-- R39 with R261: the invariant holds at reset. -/
def Obligations.ResetSatisfiesInvariant : Prop := State.reset.Inv

/-- R39 (a) to (d) with R261 and the canonical form of memory: every action of every agent keeps them, from every state
that has them. -/
def Obligations.StepKeepsInvariant : Prop :=
  ∀ s t : State, s.Inv → step s = .next t → t.Inv

/-- R125, R260, R98: from a state with the invariant a step always answers a next state; no instruction, tick or host
operation stops the model. That the turn of a STOPPED or FAULTED engine, in which R120 has no step, answers a next state is
the model's own choice (log entry 9). -/
def Obligations.InvariantStatesAlwaysStep : Prop :=
  ∀ s : State, s.Inv → ∃ t : State, step s = .next t

/-! ## The step -/

/-- R120, R122, R124, R125: when the bytes at PC decode to `i`, an instruction step in any MODE is the execute stage of `i`
from the state with PC advanced by 2. With MODE RUNNING the machine's step is that step; the agenda, when it gives the
execution agent its turn by name, is one action shorter (log entry 1). -/
def Obligations.StepRunsDecodedInstruction : Prop :=
  ∀ (s : State) (i : Instr) (rest : List Action), s.pc.toNat ≤ 0xFFE →
    decodeBytes [s.mem.read s.pc.toNat, s.mem.read (s.pc.toNat + 1)] = .ok (i, []) →
    instructionStep s = exec i (s.withPC (s.pc + 2)) ∧
    (s.mode = .running → s.agenda = [] → step s = exec i (s.withPC (s.pc + 2))) ∧
    (s.mode = .running → s.agenda = .engine :: rest → step s = exec i ((s.withAgenda rest).withPC (s.pc + 2)))

/-- R121, R264: an instruction step with `PC >= 0xFFF` faults with cause 6; PC is not advanced and nothing but MODE and the
report changes. It is said of the model's `instructionStep` in every MODE, more than the spec asks: a step is taken only when
RUNNING (R120) or for `stepOnce` from STOPPED (R239). With MODE RUNNING the machine's step is that step; that the agenda is
one action shorter when it gives the execution agent its turn by name is the model's own choice (log entry 1). -/
def Obligations.FetchOutsideMemoryFaults : Prop :=
  ∀ s : State, 0xFFF ≤ s.pc.toNat →
    ∃ t : State, instructionStep s = .next t ∧ t.mode = .faulted ∧ t.fcause = .fetchBounds ∧ t.fcause.code = 6 ∧
      t.faddr = s.pc ∧ t.fopc = 0 ∧ UnchangedBut [.mode, .report] s t ∧
      (s.mode = .running → s.agenda = [] → step s = .next t) ∧
      ∀ rest : List Action, s.mode = .running → s.agenda = .engine :: rest → step s = .next (t.withAgenda rest)

/-- R120: no step is taken while STOPPED or FAULTED unless the host asks for one: the execution agent's turn changes
nothing. -/
def Obligations.EngineIdlesUnlessRunning : Prop :=
  ∀ (s : State) (rest : List Action), s.mode ≠ .running →
    (s.agenda = [] → step s = .next s) ∧ (s.agenda = .engine :: rest → step s = .next (s.withAgenda rest))

/-- R239: `stepOnce()` takes exactly one step when STOPPED: it executes the word fetched from the state with PC advanced by
2, stays STOPPED or becomes FAULTED, and delivers that outcome; where no word can be fetched it takes the fetch fault.
Otherwise it does nothing. The agenda, and `reply` as the place of what is delivered, are the model's own (log entries 1
and 2). -/
def Obligations.StepOnceTakesOneStepWhenStopped : Prop :=
  ∀ (s : State) (rest : List Action), s.agenda = .port .stepOnce :: rest →
    (s.mode = .stopped → s.pc.toNat ≤ 0xFFE → ∀ t : State,
      exec (decode (wordOfBytes (s.mem.read s.pc.toNat) (s.mem.read (s.pc.toNat + 1))))
          ((s.withAgenda rest).withPC (s.pc + 2)) = .next t →
      (t.mode = .stopped ∧ step s = .next (t.withReply .stepCompleted)) ∨
      (t.mode = .faulted ∧ step s = .next (t.withReply (.stepFaulted t.fcause t.faddr t.fopc)))) ∧
    (s.mode = .stopped → 0xFFF ≤ s.pc.toNat →
      ∃ t : State, step s = .next t ∧ t.mode = .faulted ∧ t.fcause = .fetchBounds ∧ t.faddr = s.pc ∧ t.fopc = 0 ∧
        t.agenda = rest ∧ t.reply = .stepFaulted .fetchBounds s.pc 0 ∧ UnchangedBut [.mode, .report, .own] s t) ∧
    (s.mode ≠ .stopped → step s = .next ((s.withAgenda rest).withReply .noValue))

/-- R268: FAULTED is sticky. No action but `reset()` leaves it or changes the report, and the engine's turn, `run()`,
`stopEngine()` and `stepOnce()` change no element of the block. That the engine's turn answers a next state there is the
model's form (log entries 1 and 9). -/
def Obligations.FaultedIsLeftOnlyByReset : Prop :=
  ∀ s t : State, s.mode = .faulted → step s = .next t → s.agenda.head? ≠ some (.port .reset) →
    t.mode = .faulted ∧ Part.report.Same s t ∧
    (s.agenda.head? ∈ [none, some .engine, some (.port .run), some (.port .stopEngine), some (.port .stepOnce)] →
      UnchangedBut [.own] s t)

/-- R241, R300: `reset()` puts every element to its reset value, from any state, FAULTED too. -/
def Obligations.ResetOperationRestoresEverything : Prop :=
  ∀ s : State, PortDoes .reset s [.mem, .v, .i, .pc, .sp, .stack, .dt, .st, .disp, .trun, .mode, .report] .noValue
    fun t => UnchangedBut [.own] State.reset t

/-! ## Encoding -/

/-- The words written out bit by bit in spec/95_test_vectors.md E1 to E19, one or more of each family, and four of its
no-op words, as bytes in memory order. -/
def Obligations.WrittenOutWordsDecode : Prop :=
  decodeBytes [0b00000000, 0b11100000] = .ok (.cls, []) ∧ decodeBytes [0b00000000, 0b11101110] = .ok (.ret, []) ∧
  decodeBytes [0b00010001, 0b00110101] = .ok (.jp 0x135, []) ∧
  decodeBytes [0b00100001, 0b00110101] = .ok (.call 0x135, []) ∧
  decodeBytes [0b00111010, 0b01000010] = .ok (.seByte 10 0x42, []) ∧
  decodeBytes [0b01010001, 0b00100000] = .ok (.seReg 1 2, []) ∧
  decodeBytes [0b01110011, 0b00000101] = .ok (.addByte 3 5, []) ∧
  decodeBytes [0b10000010, 0b00000011] = .ok (.xorReg 2 0, []) ∧
  decodeBytes [0b10100010, 0b11110000] = .ok (.ldI 0x2F0, []) ∧
  decodeBytes [0b11110101, 0b00000111] = .ok (.ldFromDt 5, []) ∧
  decodeBytes [0b11111010, 0b00011000] = .ok (.ldToSt 10, []) ∧
  decodeBytes [0b11110010, 0b01010101] = .ok (.storeRegs 2, []) ∧
  decodeBytes [0b11110010, 0b01100101] = .ok (.loadRegs 2, []) ∧
  decode 0x0000 = .unrecognised 0x0000 ∧ decode 0x512F = .unrecognised 0x512F ∧
  decode 0x8124 = .unrecognised 0x8124 ∧ decode 0xF015 = .unrecognised 0xF015

/-- R92, R93, R96: decoding the word of a well-formed instruction gives the instruction back, every operand at every
value. -/
def Obligations.DecodeOfEncodeIsInstruction : Prop :=
  ∀ i : Instr, i.wellFormed = true → decode (encode i) = i

/-- R90, R97, R98: every 16-bit word decodes to a well-formed term that encodes to that same word. -/
def Obligations.EncodeOfDecodeIsWord : Prop :=
  ∀ op : Word, (decode op).wellFormed = true ∧ encode (decode op) = op

/-- R95: the map has 19 rows and no word matches two of them. -/
def Obligations.NoWordMatchesTwoRows : Prop :=
  rows.length = 19 ∧ ∀ (op : Word) (j k : Fin rows.length), rows[j].hits op = true → rows[k].hits op = true → j = k

/-- R97: a word decodes to the default no-op exactly when it is none of the words the map by major opcode calls
instructions. -/
def Obligations.UnrecognisedWordsAreTheRestOfTheMap : Prop :=
  ∀ op : Word, decode op = .unrecognised op ↔ recognised op = false

/-! ## CLS, RET, JP, CALL -/

/-- R140: `00E0` CLS makes every display cell zero and changes nothing else. -/
def Obligations.ClsClearsDisplay : Prop :=
  DecodesAs 0xFFFF 0x00E0 (fun _ => .cls) ∧
  ∀ s : State, ∃ t : State, exec .cls s = .next t ∧ (∀ k : Nat, Memory.read t.disp k = 0) ∧
    UnchangedBut [.disp] s t

/-- R141: `00EE` RET with `SP = k + 1` copies `STACK[k]` to PC and leaves `SP = k`, the entry as it was; with `SP = 0` it
takes STACK_UNDERFLOW. -/
def Obligations.RetPopsReturnAddress : Prop :=
  DecodesAs 0xFFFF 0x00EE (fun _ => .ret) ∧
  (∀ (s : State) (k : Fin 16), s.sp.toNat = k.val + 1 →
    ∃ t : State, exec .ret s = .next t ∧ t.sp.toNat = k.val ∧ t.pc = s.stack[k] ∧ UnchangedBut [.pc, .sp] s t) ∧
  (∀ s : State, s.sp = 0 → ∃ t : State, exec .ret s = .next t ∧ TakesFault .stackUnderflow 0x00EE s t)

/-- Log entry 5, the model's own choice: RET with SP at 17 to 31, which no run reaches (R39), stops by name. -/
def Obligations.RetStopsWhereSlotIsMissing : Prop :=
  ∀ s : State, 17 ≤ s.sp.toNat → exec .ret s = .fault .stackSlotMissing

/-- R142: `1nnn` JP writes nnn, zero-extended, to PC and nothing else. -/
def Obligations.JpLoadsAddress : Prop :=
  DecodesAs 0xF000 0x1000 (fun op => .jp (fieldNNN op)) ∧
  ∀ (nnn : Addr) (s : State), ∃ t : State, exec (.jp nnn) s = .next t ∧ t.pc.toNat = nnn.toNat ∧
    UnchangedBut [.pc] s t

/-- R143: `2nnn` CALL with `SP = k < 16` writes PC, the address after the CALL, to `STACK[k]`, leaves the other entries,
makes SP `k + 1` and PC nnn; with `SP >= 16` it takes STACK_OVERFLOW, for every nnn, none of which is out of range. -/
def Obligations.CallPushesReturnAddress : Prop :=
  DecodesAs 0xF000 0x2000 (fun op => .call (fieldNNN op)) ∧
  (∀ (nnn : Addr) (s : State) (k : Fin 16), s.sp.toNat = k.val →
    ∃ t : State, exec (.call nnn) s = .next t ∧ t.stack[k] = s.pc ∧ (∀ j : Fin 16, j ≠ k → t.stack[j] = s.stack[j]) ∧
      t.sp.toNat = k.val + 1 ∧ t.pc.toNat = nnn.toNat ∧ UnchangedBut [.pc, .sp, .stack] s t) ∧
  (∀ (nnn : Addr) (s : State), 16 ≤ s.sp.toNat →
    ∃ t : State, exec (.call nnn) s = .next t ∧ TakesFault .stackOverflow (encode (.call nnn)) s t)

/-- R144: a CALL that completes and a RET that follows restore PC to the address after the CALL, SP and every live entry;
the slot popped is the one stack entry that may differ. -/
def Obligations.CallThenRetRestores : Prop :=
  ∀ (nnn : Addr) (s : State), s.sp.toNat < 16 →
    ∃ t u : State, exec (.call nnn) s = .next t ∧ exec .ret t = .next u ∧ u.pc = s.pc ∧ u.sp = s.sp ∧
      (∀ k : Fin 16, k.val ≠ s.sp.toNat → u.stack[k] = s.stack[k]) ∧ UnchangedBut [.stack] s u

/-! ## Skips -/

/-- R150, R151, R152: SE skips on equality, SNE on inequality; nothing but PC changes, and PC by exactly 2. -/
def Obligations.SkipsCompareAndAddTwo : Prop :=
  DecodesAs 0xF000 0x3000 (fun op => .seByte (fieldX op) (fieldKK op)) ∧
  DecodesAs 0xF000 0x4000 (fun op => .sneByte (fieldX op) (fieldKK op)) ∧
  DecodesAs 0xF00F 0x5000 (fun op => .seReg (fieldX op) (fieldY op)) ∧
  (∀ (x : Reg) (kk : Byte), SkipsWhen (.seByte x kk) fun s => s.reg x = kk) ∧
  (∀ (x : Reg) (kk : Byte), SkipsWhen (.sneByte x kk) fun s => s.reg x ≠ kk) ∧
  (∀ x y : Reg, SkipsWhen (.seReg x y) fun s => s.reg x = s.reg y)

/-- R26: the additions of fetch and skip never wrap. From a PC that can be fetched from, PC is at most 0x1000 after the fetch
and at most 0x1002 after a skip. -/
def Obligations.PcAdditionsNeverWrap : Prop :=
  ∀ (s t : State) (i : Instr), s.pc.toNat ≤ 0xFFE → i.wellFormed = true → writtenBy i = [.pc] →
    (∀ nnn : Addr, i ≠ .jp nnn) → exec i s.advance = .next t →
    s.advance.pc.toNat = s.pc.toNat + 2 ∧ s.advance.pc.toNat ≤ 0x1000 ∧
    (t.pc.toNat = s.pc.toNat + 2 ∨ t.pc.toNat = s.pc.toNat + 4) ∧ t.pc.toNat ≤ 0x1002

/-! ## Register load, add, logic -/

/-- R160, R162, R180: `6xkk`, `8xy0` and `Fx07` write kk, V[y] and DT to V[x], and nothing else. -/
def Obligations.LoadsWriteOnlyTheirRegister : Prop :=
  DecodesAs 0xF000 0x6000 (fun op => .ldByte (fieldX op) (fieldKK op)) ∧
  DecodesAs 0xF00F 0x8000 (fun op => .ldReg (fieldX op) (fieldY op)) ∧
  DecodesAs 0xF0FF 0xF007 (fun op => .ldFromDt (fieldX op)) ∧
  (∀ (x : Reg) (kk : Byte), WritesOnlyRegister (.ldByte x kk) x fun _ => kk) ∧
  (∀ x y : Reg, WritesOnlyRegister (.ldReg x y) x fun s => s.reg y) ∧
  (∀ x : Reg, WritesOnlyRegister (.ldFromDt x) x fun s => s.dt)

/-- R161: `7xkk` writes the sum modulo 256 to V[x] and nothing else; no flag. -/
def Obligations.AddByteWrapsModulo256 : Prop :=
  DecodesAs 0xF000 0x7000 (fun op => .addByte (fieldX op) (fieldKK op)) ∧
  ∀ (x : Reg) (kk : Byte),
    WritesOnlyRegister (.addByte x kk) x fun s => BitVec.ofNat 8 (((s.reg x).toNat + kk.toNat) % 256)

/-- R163, R164, R165: OR, AND, XOR of V[x] and V[y] bit by bit to V[x], and nothing else, VF included. -/
def Obligations.LogicActsBitByBit : Prop :=
  DecodesAs 0xF00F 0x8001 (fun op => .orReg (fieldX op) (fieldY op)) ∧
  DecodesAs 0xF00F 0x8002 (fun op => .andReg (fieldX op) (fieldY op)) ∧
  DecodesAs 0xF00F 0x8003 (fun op => .xorReg (fieldX op) (fieldY op)) ∧
  ∀ (x y : Reg) (s : State),
    (∃ t : State, exec (.orReg x y) s = .next t ∧
      (∀ k : Nat, (t.reg x).getLsbD k = ((s.reg x).getLsbD k || (s.reg y).getLsbD k)) ∧
      (∀ r : Reg, r ≠ x → t.reg r = s.reg r) ∧ UnchangedBut [.v] s t) ∧
    (∃ t : State, exec (.andReg x y) s = .next t ∧
      (∀ k : Nat, (t.reg x).getLsbD k = ((s.reg x).getLsbD k && (s.reg y).getLsbD k)) ∧
      (∀ r : Reg, r ≠ x → t.reg r = s.reg r) ∧ UnchangedBut [.v] s t) ∧
    (∃ t : State, exec (.xorReg x y) s = .next t ∧
      (∀ k : Nat, (t.reg x).getLsbD k = ((s.reg x).getLsbD k ^^ (s.reg y).getLsbD k)) ∧
      (∀ r : Reg, r ≠ x → t.reg r = s.reg r) ∧ UnchangedBut [.v] s t)

/-- R22: VF changes only when an instruction names it as its destination, or when Fx65 reaches it. -/
def Obligations.VfChangesOnlyAsNamedDestination : Prop :=
  ∀ (i : Instr) (s t : State), exec i s = .next t → t.reg 15 ≠ s.reg 15 → namesVF i = true

/-! ## Index register and timers -/

/-- R170: `Annn` writes nnn, zero-extended, to I and nothing else. -/
def Obligations.LdILoadsAddress : Prop :=
  DecodesAs 0xF000 0xA000 (fun op => .ldI (fieldNNN op)) ∧
  ∀ (nnn : Addr) (s : State), ∃ t : State, exec (.ldI nnn) s = .next t ∧ t.i.toNat = nnn.toNat ∧
    UnchangedBut [.i] s t

/-- R171: `Fx1E` writes the sum modulo 65536 to I and nothing else; no flag and no range check. -/
def Obligations.AddIWrapsModulo65536 : Prop :=
  DecodesAs 0xF0FF 0xF01E (fun op => .addI (fieldX op)) ∧
  ∀ (x : Reg) (s : State), ∃ t : State, exec (.addI x) s = .next t ∧
    t.i.toNat = (s.i.toNat + (s.reg x).toNat) % 65536 ∧ UnchangedBut [.i] s t

/-- R181: `Fx18` writes V[x] to ST and nothing else. -/
def Obligations.LdStWritesSoundTimer : Prop :=
  DecodesAs 0xF0FF 0xF018 (fun op => .ldToSt (fieldX op)) ∧
  ∀ (x : Reg) (s : State), ∃ t : State, exec (.ldToSt x) s = .next t ∧ t.st = s.reg x ∧ UnchangedBut [.st] s t

/-! ## Register and memory transfers -/

/-- R190: `Fx55` with `I + x <= 0xFFF` puts V[k] at `I + k` for k = 0..x and changes no other cell and nothing else; with
`I + x > 0xFFF`, a sum of natural numbers, it takes MEM_WRITE_BOUNDS and no cell changes. The premise on memory is its
canonical form, which every step keeps. -/
def Obligations.StoreRegsWritesBlock : Prop :=
  DecodesAs 0xF0FF 0xF055 (fun op => .storeRegs (fieldX op)) ∧
  (∀ (x : Reg) (s : State), s.mem.wf = true → s.i.toNat + x.toNat ≤ 0xFFF →
    ∃ t : State, exec (.storeRegs x) s = .next t ∧
      (∀ r : Reg, r.toNat ≤ x.toNat → t.mem.read (s.i.toNat + r.toNat) = s.reg r) ∧
      (∀ a : Nat, a < s.i.toNat ∨ s.i.toNat + x.toNat < a → t.mem.read a = s.mem.read a) ∧
      UnchangedBut [.mem] s t) ∧
  (∀ (x : Reg) (s : State), 0xFFF < s.i.toNat + x.toNat →
    ∃ t : State, exec (.storeRegs x) s = .next t ∧ TakesFault .memWriteBounds (encode (.storeRegs x)) s t)

/-- R191: `Fx65` with `I + x <= 0xFFF` loads V[k] from `I + k` for k = 0..x and changes no other register and nothing
else; with `I + x > 0xFFF` it takes MEM_READ_BOUNDS and no register changes. -/
def Obligations.LoadRegsReadsBlock : Prop :=
  DecodesAs 0xF0FF 0xF065 (fun op => .loadRegs (fieldX op)) ∧
  (∀ (x : Reg) (s : State), s.i.toNat + x.toNat ≤ 0xFFF →
    ∃ t : State, exec (.loadRegs x) s = .next t ∧
      (∀ r : Reg, r.toNat ≤ x.toNat → t.reg r = s.mem.read (s.i.toNat + r.toNat)) ∧
      (∀ r : Reg, x.toNat < r.toNat → t.reg r = s.reg r) ∧ UnchangedBut [.v] s t) ∧
  (∀ (x : Reg) (s : State), 0xFFF < s.i.toNat + x.toNat →
    ∃ t : State, exec (.loadRegs x) s = .next t ∧ TakesFault .memReadBounds (encode (.loadRegs x)) s t)

/-- R190 to R192 with spec/95_test_vectors.md S7: registers stored by Fx55, overwritten with anything, and reloaded by Fx65
from the same I are exactly the original ones, the registers above x as overwritten. -/
def Obligations.StoreThenLoadRestoresRegisters : Prop :=
  ∀ (x : Reg) (s : State) (vs : Vector Byte 16), s.mem.wf = true → s.i.toNat + x.toNat ≤ 0xFFF →
    ∃ t u : State, exec (.storeRegs x) s = .next t ∧ exec (.loadRegs x) (t.withV vs) = .next u ∧
      (∀ r : Reg, r.toNat ≤ x.toNat → u.reg r = s.reg r) ∧
      (∀ r : Reg, x.toNat < r.toNat → u.reg r = (t.withV vs).reg r) ∧ u.i = s.i

/-- R77: a fetch at an address whose two cells an Fx55 has just written returns the bytes stored, high byte at the lower
address. -/
def Obligations.FetchSeesStoredBytes : Prop :=
  ∀ (x : Reg) (s : State) (r : Reg), s.mem.wf = true → s.i.toNat + x.toNat ≤ 0xFFF → r.toNat + 1 ≤ x.toNat →
    ∃ t : State, exec (.storeRegs x) s = .next t ∧
      fetchWord (t.withPC (s.i + r.setWidth 16)) = some (wordOfBytes (s.reg r) (s.reg (r + 1)))

/-! ## The default no-op -/

/-- R126: every word outside the 19 patterns decodes to the no-op; its execute stage changes nothing, so the whole step
changes PC by 2 and nothing else, from any state. -/
def Obligations.UnrecognisedWordOnlyAdvancesPc : Prop :=
  (∀ (op : Word) (s : State), exec (.unrecognised op) s = .next s) ∧
  ∀ (s : State) (op : Word), AboutToStep s → fetchWord s = some op → recognised op = false →
    step s = .next (s.withPC (s.pc + 2))

/-- R127, R311: at a jump to its own address every further step leaves the whole state as it is. -/
def Obligations.SelfJumpIsFixedPoint : Prop :=
  ∀ s : State, AboutToStep s → atSelfJump s = true → step s = .next s

/-- R128, its particular case: a machine run with empty memory from PC 0 executes 2048 no-ops, two bytes each, and then
faults at fetch with `FADDR = 0x1000`; execution never continues at 0x000. -/
def Obligations.EmptyMemoryRunsOffTheEnd : Prop :=
  ∀ s : State, AboutToStep s → s.mem = [] → s.pc = 0 →
    (∀ n : Nat, n ≤ 2048 → core.run n s = .next (s.withPC (BitVec.ofNat 16 (2 * n)))) ∧
    ∃ t : State, core.run 2049 s = .next t ∧ t.mode = .faulted ∧ t.fcause = .fetchBounds ∧ t.faddr = 0x1000 ∧
      t.fopc = 0 ∧ t.pc = 0x1000 ∧ UnchangedBut [.pc, .mode, .report] s t

/-- R128, the general case, whatever memory holds: the fetch at 0xFFE reads the last two bytes, and an instruction there that
completes and writes no PC leaves PC at 0x1000; a step that completes with PC past the last fetchable address is followed by
a fetch fault there, never by a step at 0x000. -/
def Obligations.ExecutionOffTheEndFaults : Prop :=
  (∀ s : State, AboutToStep s → s.pc = 0xFFE →
    fetchWord s = some (wordOfBytes (s.mem.read 0xFFE) (s.mem.read 0xFFF)) ∧
    ∀ t : State, step s = .next t → t.mode = .running →
      Part.pc ∉ writtenBy (decode (wordOfBytes (s.mem.read 0xFFE) (s.mem.read 0xFFF))) → t.pc = 0x1000) ∧
  ∀ s t : State, AboutToStep s → step s = .next t → t.mode = .running → 0xFFF ≤ t.pc.toNat →
    ∃ u : State, step t = .next u ∧ u.mode = .faulted ∧ u.fcause = .fetchBounds ∧ u.faddr = t.pc ∧ u.fopc = 0 ∧
      u.pc = t.pc ∧ UnchangedBut [.mode, .report] t u

/-! ## Whole-machine rules -/

/-- R40: an instruction that completes changes only what the access summary lists for it, down to the register, the cells
and the stack entry; one that does not takes a fault the table of R260 gives it. -/
def Obligations.ExecWritesOnlyWhatTheAccessTableLists : Prop :=
  ∀ (i : Instr) (s t : State), exec i s = .next t →
    (UnchangedBut (writtenBy i) s t ∧ KeepsTheRest i s t) ∨ ∃ c : Cause, raises i c s ∧ TakesFault c (encode i) s t

/-- R260, R263: an execute stage faults exactly when the table of causes says, with that cause. -/
def Obligations.ExecFaultsExactlyWhenRaised : Prop :=
  (∀ (i : Instr) (c : Cause) (s : State), raises i c s →
    ∃ t : State, exec i s = .next t ∧ TakesFault c (encode i) s t) ∧
  (∀ (i : Instr) (s t : State), exec i s = .next t → s.mode ≠ .faulted → t.mode = .faulted →
    ∃ c : Cause, raises i c s)

/-- R263, R264, R266: a step that faults has changed nothing but MODE and the report, with the address it fetched from in
FADDR; at execute also PC, advanced by 2, and FOPC is the word fetched. -/
def Obligations.StepFaultIsPrecise : Prop :=
  ∀ s t : State, AboutToStep s → step s = .next t → t.mode = .faulted →
    t.faddr = s.pc ∧ t.fcause ≠ .callTargetRange ∧
    ((fetchWord s = none ∧ t.fcause = .fetchBounds ∧ t.fopc = 0 ∧ t.pc = s.pc) ∨
     (fetchWord s = some t.fopc ∧ raises (decode t.fopc) t.fcause s ∧ t.pc = s.pc + 2)) ∧
    UnchangedBut [.pc, .mode, .report] s t

/-- R260: no tick and no host operation but the step it may ask for raises a fault; each completes and the actions after
it are still to come. -/
def Obligations.TicksAndPortOperationsNeverFault : Prop :=
  ∀ (s : State) (a : Action) (rest : List Action), s.agenda = a :: rest → a ≠ .engine → a ≠ .port .stepOnce →
    ∃ t : State, step s = .next t ∧ t.agenda = rest ∧ (t.mode = .faulted → s.mode = .faulted)

/-- R39 (e): DT changes only by a tick with TRUN set, down by one and not below zero, by a host write or by reset; no
instruction changes it. -/
def Obligations.DelayTimerChangesOnlyByTickHostOrReset : Prop :=
  ∀ s t : State, step s = .next t → t.dt ≠ s.dt →
    (s.agenda.head? = some .tick ∧ s.trun = true ∧ t.dt.toNat + 1 = s.dt.toNat) ∨
    (∃ b : Byte, s.agenda.head? = some (.port (.writeDT b)) ∧ t.dt = b) ∨
    (s.agenda.head? = some (.port .reset) ∧ t.dt = 0)

/-! ## Timer engine -/

/-- R200: a tick lowers DT and ST by one each, not below zero, when TRUN = 1, and changes nothing when TRUN = 0; it changes
nothing else, in every MODE. -/
def Obligations.TickLowersBothTimers : Prop :=
  ∀ (s : State) (rest : List Action), s.agenda = .tick :: rest →
    ∃ t : State, step s = .next t ∧ t.agenda = rest ∧ t.reply = s.reply ∧ UnchangedBut [.dt, .st, .own] s t ∧
      (s.trun = true → t.dt.toNat = s.dt.toNat - 1 ∧ t.st.toNat = s.st.toNat - 1) ∧
      (s.trun = false → t.dt = s.dt ∧ t.st = s.st)

/-- R205, R208: n ticks in a row lower a started timer's counters by n, not below zero, and leave a stopped timer's
counters as they are however many there are; the rest of the agenda is then still to come. -/
def Obligations.ManyTicksSaturateOrDoNothing : Prop :=
  ∀ (s : State) (n : Nat) (rest : List Action), s.agenda = List.replicate n .tick ++ rest →
    ∃ t : State, core.run n s = .next t ∧ t.agenda = rest ∧ t.reply = s.reply ∧ UnchangedBut [.dt, .st, .own] s t ∧
      (s.trun = true → t.dt.toNat = s.dt.toNat - n ∧ t.st.toNat = s.st.toNat - n) ∧
      (s.trun = false → t.dt = s.dt ∧ t.st = s.st)

/-- R203, R204: `start()` sets TRUN and `stop()` clears it, whatever it was; nothing else changes. -/
def Obligations.StartAndStopSetTrunAlone : Prop :=
  ∀ s : State, PortDoes .start s [.trun] .noValue (fun t => t.trun = true) ∧
    PortDoes .stop s [.trun] .noValue (fun t => t.trun = false)

/-- R74: Fx07 reads DT as before or after a tick, and Fx18 with a tick leaves ST at V[x] when the tick comes first and at
V[x] less one, not below zero, when the write comes first. -/
def Obligations.TimerAccessIsWholeInEitherOrder : Prop :=
  ∀ (x : Reg) (s : State), s.trun = true →
    ∃ read readAfter write writeAfter : State,
      exec (.ldFromDt x) s = .next read ∧ read.reg x = s.dt ∧
      exec (.ldFromDt x) (tick s) = .next readAfter ∧ (readAfter.reg x).toNat = s.dt.toNat - 1 ∧
      exec (.ldToSt x) (tick s) = .next writeAfter ∧ writeAfter.st = s.reg x ∧
      exec (.ldToSt x) s = .next write ∧ (tick write).st.toNat = (s.reg x).toNat - 1

/-! ## Host port -/

/-- R220: `readBytes` answers the bytes from addr on, clipped at the end of memory, empty past it; no state changes. -/
def Obligations.ReadBytesClipsAtEndOfMemory : Prop :=
  ∀ (s : State) (addr length : Word), ∃ bs : List Byte,
    PortDoes (.readBytes addr length) s [] (.bytes bs) (fun _ => True) ∧
    bs.length = min (addr.toNat + length.toNat) 4096 - addr.toNat ∧
    ∀ (k : Nat) (h : k < bs.length), bs[k] = s.mem.read (addr.toNat + k)

/-- R221: `writeBytes` puts byte k at `addr + k` for as many as fit below 4096, drops the rest, and changes no other cell
and nothing else. -/
def Obligations.WriteBytesClipsAtEndOfMemory : Prop :=
  ∀ (s : State) (addr : Word) (bytes : List Byte), s.mem.wf = true →
    PortDoes (.writeBytes addr bytes) s [.mem] .noValue fun t =>
      (∀ (k : Nat) (h : k < bytes.length), addr.toNat + k < 4096 → t.mem.read (addr.toNat + k) = bytes[k]) ∧
      (∀ a : Nat, a < addr.toNat ∨ addr.toNat + bytes.length ≤ a ∨ 4096 ≤ a → t.mem.read a = s.mem.read a)

/-- R222: `readBytes(a, len(b))` after `writeBytes(a, b)` answers exactly b when `a + len(b) <= 4096`. -/
def Obligations.ReadBytesAfterWriteBytesReturnsThem : Prop :=
  ∀ (s : State) (addr : Word) (bytes : List Byte) (rest : List Action), s.mem.wf = true →
    addr.toNat + bytes.length ≤ 4096 →
    s.agenda = .port (.writeBytes addr bytes) :: .port (.readBytes addr (BitVec.ofNat 16 bytes.length)) :: rest →
    ∃ t : State, core.run 2 s = .next t ∧ t.reply = .bytes bytes ∧ t.agenda = rest

/-- R225, R226: a single-register access with an index below 16 reads or writes that register alone; with an index of 16
or more the read delivers no value and the write does nothing. -/
def Obligations.SingleRegisterAccessRejectsIndexPast15 : Prop :=
  ∀ (s : State) (index value : Byte),
    (∀ r : Reg, index.toNat = r.toNat →
      PortDoes (.readRegister index) s [] (.byte (s.reg r)) (fun _ => True) ∧
      PortDoes (.writeRegister index value) s [.v] .noValue fun t =>
        t.reg r = value ∧ ∀ q : Reg, q ≠ r → t.reg q = s.reg q) ∧
    (16 ≤ index.toNat →
      PortDoes (.readRegister index) s [] .noValue (fun _ => True) ∧
      PortDoes (.writeRegister index value) s [] .noValue (fun _ => True))

/-- R230: `readSP` answers SP; `writeSP` sets SP to a value of at most 16 and refuses a greater one; STACK does not
change. -/
def Obligations.WriteSpRefusesAbove16 : Prop :=
  ∀ (s : State) (value : Nat),
    PortDoes .readSP s [] (.pointer s.sp) (fun _ => True) ∧
    (value ≤ 16 → PortDoes (.writeSP value) s [.sp] .noValue fun t => t.sp.toNat = value) ∧
    (16 < value → PortDoes (.writeSP value) s [] .noValue fun _ => True)

/-- R227, R228, R229, R231, R232, R233: each whole-register accessor answers or sets its register, any value, and nothing
else. -/
def Obligations.RegisterAccessorsReadAndWriteWhole : Prop :=
  ∀ (s : State) (vs : Vector Byte 16) (ws : Vector Word 16) (w : Word) (b : Byte),
    PortDoes .readRegisters s [] (.registers s.v) (fun _ => True) ∧
    PortDoes (.writeRegisters vs) s [.v] .noValue (fun t => t.v = vs) ∧
    PortDoes .readPC s [] (.word s.pc) (fun _ => True) ∧
    PortDoes (.writePC w) s [.pc] .noValue (fun t => t.pc = w) ∧
    PortDoes .readI s [] (.word s.i) (fun _ => True) ∧
    PortDoes (.writeI w) s [.i] .noValue (fun t => t.i = w) ∧
    PortDoes .readStackFrame s [] (.frame s.stack) (fun _ => True) ∧
    PortDoes (.writeStackFrame ws) s [.stack] .noValue (fun t => t.stack = ws) ∧
    PortDoes .readDT s [] (.byte s.dt) (fun _ => True) ∧
    PortDoes (.writeDT b) s [.dt] .noValue (fun t => t.dt = b) ∧
    PortDoes .readST s [] (.byte s.st) (fun _ => True) ∧
    PortDoes (.writeST b) s [.st] .noValue (fun t => t.st = b)

/-- R236, R39 (b): `readDisplay` answers the 2048 cells, which in every state with the invariant are all zero. -/
def Obligations.ReadDisplayAnswersZeroCells : Prop :=
  ∀ s : State, ∃ bs : List Byte, PortDoes .readDisplay s [] (.bytes bs) (fun _ => True) ∧ bs.length = 2048 ∧
    (∀ (k : Nat) (h : k < bs.length), bs[k] = Memory.read s.disp k) ∧
    (s.Inv → ∀ (k : Nat) (h : k < bs.length), bs[k] = 0)

/-- R237, R238, R234, R240: `run()` and `stopEngine()` move MODE between STOPPED and RUNNING only; `readTRUN` and
`readStatus` answer their registers. -/
def Obligations.EngineControlMovesBetweenStoppedAndRunning : Prop :=
  ∀ s : State,
    (s.mode = .stopped → PortDoes .run s [.mode] .noValue fun t => t.mode = .running) ∧
    (s.mode ≠ .stopped → PortDoes .run s [] .noValue fun _ => True) ∧
    (s.mode = .running → PortDoes .stopEngine s [.mode] .noValue fun t => t.mode = .stopped) ∧
    (s.mode ≠ .running → PortDoes .stopEngine s [] .noValue fun _ => True) ∧
    PortDoes .readTRUN s [] (.bit s.trun) (fun _ => True) ∧
    PortDoes .readStatus s [] (.status s.mode s.fcause s.faddr s.fopc) (fun _ => True)

/-- R303: the boot sequence from any state, whatever ORIGIN, ENTRY and image: memory holds the image clipped at 0xFFF and
zero elsewhere, PC is ENTRY, the engine RUNNING, the timer started if wanted, all else as after reset. That the sequence
stands in the agenda (log entry 1) and goes on past `reset()`, which keeps the actions still to come (log entry 11), is the
model's own choice. -/
def Obligations.BootLoadsImageAndRuns : Prop :=
  ∀ (s : State) (origin entry : Word) (image : List Byte) (timer : Bool),
    s.agenda = bootActions origin entry image timer →
    ∃ t : State, core.run (bootActions origin entry image timer).length s = .next t ∧ t.agenda = [] ∧
      (∀ (k : Nat) (h : k < image.length), origin.toNat + k < 4096 → t.mem.read (origin.toNat + k) = image[k]) ∧
      (∀ a : Nat, a < origin.toNat ∨ origin.toNat + image.length ≤ a → t.mem.read a = 0) ∧
      t.pc = entry ∧ t.mode = .running ∧ t.trun = timer ∧
      UnchangedBut [.mem, .pc, .mode, .trun, .own] State.reset t
end

