-- ==== Sys2Proof/Laws/Decode.lean ====
section
/-! SUPPORT. Laws of fields, formats and rows: each format gives its fields back, carries its literal digits, and a row
that matches a word puts the word in R97's map of recognised words. -/

namespace Sys2Proof

/-! ## The formats give their fields back (R92, R93) -/

@[simp] theorem fieldNNN_formatA (major : BitVec 4) (nnn : Addr) : fieldNNN (formatA major nnn) = nnn := by
  ext i hi
  simp [fieldNNN, formatA, hi]
  omega

@[simp] theorem fieldX_formatK (major : BitVec 4) (x : Reg) (kk : Byte) : fieldX (formatK major x kk) = x := by
  ext i hi
  interval_cases i <;> simp [fieldX, formatK]

@[simp] theorem fieldKK_formatK (major : BitVec 4) (x : Reg) (kk : Byte) : fieldKK (formatK major x kk) = kk := by
  ext i hi
  interval_cases i <;> simp [fieldKK, formatK]

@[simp] theorem fieldX_formatR (major : BitVec 4) (x y : Reg) (fn : BitVec 4) :
    fieldX (formatR major x y fn) = x := by
  ext i hi
  interval_cases i <;> simp [fieldX, formatR]

@[simp] theorem fieldY_formatR (major : BitVec 4) (x y : Reg) (fn : BitVec 4) :
    fieldY (formatR major x y fn) = y := by
  ext i hi
  interval_cases i <;> simp [fieldY, formatR]

@[simp] theorem fieldX_formatF (x : Reg) (fn : Byte) : fieldX (formatF x fn) = x := fieldX_formatK _ _ _

/-! ## The formats carry their literal digits (R91) -/

@[simp] theorem formatA_mask (major : BitVec 4) (nnn : Addr) : formatA major nnn &&& 0xF000#16 = major.setWidth 16 <<< 12 := by
  ext i hi
  simp only [formatA]
  interval_cases i <;> simp

@[simp] theorem formatK_mask (major : BitVec 4) (x : Reg) (kk : Byte) :
    formatK major x kk &&& 0xF000#16 = major.setWidth 16 <<< 12 := by
  ext i hi
  simp only [formatK]
  interval_cases i <;> simp

@[simp] theorem formatR_mask (major : BitVec 4) (x y : Reg) (fn : BitVec 4) :
    formatR major x y fn &&& 0xF00F#16 = major.setWidth 16 <<< 12 ||| fn.setWidth 16 := by
  ext i hi
  simp only [formatR]
  interval_cases i <;> simp

@[simp] theorem formatF_mask (x : Reg) (fn : Byte) : formatF x fn &&& 0xF0FF#16 = 0xF000#16 ||| fn.setWidth 16 := by
  ext i hi
  simp only [formatF, formatK]
  interval_cases i <;> simp

/-! ## Bytes and words (R64) -/

@[simp] theorem wordOfBytes_highByte_lowByte (op : Word) : wordOfBytes (highByte op) (lowByte op) = op := by
  ext i hi
  interval_cases i <;> simp [wordOfBytes, highByte, lowByte]

/-! ## Matching a row means being recognised (R96 against R97) -/

theorem shift_of_mask {op mask : Word} (h : mask >>> 12 = 0xF) : op >>> 12 = (op &&& mask) >>> 12 := by
  rw [BitVec.ushiftRight_and_distrib, h]
  ext i hi
  interval_cases i <;> simp

theorem low_of_mask {op mask : Word} {n : Nat} (h : mask &&& BitVec.ofNat 16 (2 ^ n - 1) = BitVec.ofNat 16 (2 ^ n - 1))
    (hn : n ≤ 15) : op.toNat % 2 ^ n = (op &&& mask).toNat % 2 ^ n := by
  have low (w : Word) : w.toNat % 2 ^ n = (w &&& BitVec.ofNat 16 (2 ^ n - 1)).toNat := by
    have : 2 ^ n - 1 < 2 ^ 16 := lt_of_le_of_lt (Nat.sub_le _ _) (Nat.pow_lt_pow_right (by omega) (by omega))
    rw [BitVec.toNat_and, BitVec.toNat_ofNat, Nat.mod_eq_of_lt this, Nat.and_two_pow_sub_one_eq_mod]
  rw [low, low, BitVec.and_assoc, h]

theorem recognised_of_exact {op : Word} (h : op = 0x00E0 ∨ op = 0x00EE) : recognised op = true := by
  rcases h with rfl | rfl <;> rfl

theorem recognised_of_function {op : Word} (h : op &&& 0xF0FF ∈ [0xF007#16, 0xF018, 0xF01E, 0xF055, 0xF065]) :
    recognised op = true := by
  have major := shift_of_mask (op := op) (mask := 0xF0FF) (by decide)
  have low : op.toNat % 256 = (op &&& 0xF0FF).toNat % 256 := low_of_mask (n := 8) (by decide) (by decide)
  unfold recognised
  rw [major, low]
  generalize op &&& 0xF0FF = w at h
  revert w
  simp

theorem recognised_of_register {op : Word} (h : op &&& 0xF00F ∈ [0x5000#16, 0x8000, 0x8001, 0x8002, 0x8003]) :
    recognised op = true := by
  have major := shift_of_mask (op := op) (mask := 0xF00F) (by decide)
  have low : op.toNat % 16 = (op &&& 0xF00F).toNat % 16 := low_of_mask (n := 4) (by decide) (by decide)
  unfold recognised
  rw [major, low]
  generalize op &&& 0xF00F = w at h
  revert w
  simp

theorem recognised_of_major {op : Word}
    (h : op &&& 0xF000 ∈ [0x1000#16, 0x2000, 0x3000, 0x4000, 0x6000, 0x7000, 0xA000]) : recognised op = true := by
  have major := shift_of_mask (op := op) (mask := 0xF000) (by decide)
  unfold recognised
  rw [major]
  generalize op &&& 0xF000 = w at h
  revert w
  simp

/-- A word that some row matches is one of R97's instruction words. -/
theorem recognised_of_hits {r : Row} (hr : r ∈ rows) {op : Word} (h : r.hits op = true) : recognised op = true := by
  simp only [Row.hits, beq_iff_eq] at h
  simp only [rows, List.mem_append] at hr
  rcases hr with ((hr | hr) | hr) | hr
  · refine recognised_of_exact ?_
    have all : op &&& 0xFFFF = op := BitVec.and_allOnes
    simp only [rowsExact, List.mem_cons, List.not_mem_nil, or_false] at hr
    rcases hr with rfl | rfl <;> simp_all
  · refine recognised_of_function ?_
    simp only [rowsFunction, List.mem_cons, List.not_mem_nil, or_false] at hr
    rcases hr with rfl | rfl | rfl | rfl | rfl <;> simp_all
  · refine recognised_of_register ?_
    simp only [rowsRegister, List.mem_cons, List.not_mem_nil, or_false] at hr
    rcases hr with rfl | rfl | rfl | rfl | rfl <;> simp_all
  · refine recognised_of_major ?_
    simp only [rowsMajor, List.mem_cons, List.not_mem_nil, or_false] at hr
    rcases hr with rfl | rfl | rfl | rfl | rfl | rfl | rfl <;> simp_all

end Sys2Proof
end

