-- ==== Sys2Proof/Laws/Memory.lean ====
section
/-! SUPPORT. Laws of cells in canonical form: a read after a write, every operation keeps the form, and equal reads make
equal memories. -/

namespace Sys2Proof.Machine

theorem Memory.read_nil (a : Nat) : Memory.read [] a = 0 := rfl

/-- Raising the lower bound's demand: a memory canonical from `hi` is canonical from any `lo` below. -/
theorem Memory.wfFrom_mono {size lo hi : Nat} (h : lo ≤ hi) {m : Memory} (wf : m.wfFrom size hi = true) :
    m.wfFrom size lo = true := by
  cases m with
  | nil => rfl
  | cons c rest =>
    obtain ⟨k, b⟩ := c
    simp only [Memory.wfFrom, Bool.and_eq_true, decide_eq_true_eq] at wf ⊢
    exact ⟨⟨⟨by omega, wf.1.1.2⟩, wf.1.2⟩, wf.2⟩

/-- Below its lower bound a canonical memory lists nothing. -/
theorem Memory.read_below {size lo : Nat} {m : Memory} (wf : m.wfFrom size lo = true) {a : Nat} (h : a < lo) :
    m.read a = 0 := by
  induction m generalizing lo with
  | nil => rfl
  | cons c rest ih =>
    obtain ⟨k, b⟩ := c
    simp only [Memory.wfFrom, Bool.and_eq_true, decide_eq_true_eq] at wf
    rw [Memory.read, if_neg (by omega)]
    exact ih wf.2 (by omega)

/-- At and above its size a canonical memory lists nothing. -/
theorem Memory.read_outside {size lo : Nat} {m : Memory} (wf : m.wfFrom size lo = true) {a : Nat} (h : size ≤ a) :
    m.read a = 0 := by
  induction m generalizing lo with
  | nil => rfl
  | cons c rest ih =>
    obtain ⟨k, b⟩ := c
    simp only [Memory.wfFrom, Bool.and_eq_true, decide_eq_true_eq] at wf
    rw [Memory.read, if_neg (by omega)]
    exact ih wf.2

/-- `put` keeps the canonical form. -/
theorem Memory.put_wfFrom {size lo : Nat} {m : Memory} (wf : m.wfFrom size lo = true) {a : Nat} (h : lo ≤ a)
    (ha : a < size) (b : Byte) : (m.put a b).wfFrom size lo = true := by
  induction m generalizing lo with
  | nil =>
    unfold Memory.put
    split
    · rfl
    · simp_all [Memory.wfFrom]
  | cons c rest ih =>
    obtain ⟨k, d⟩ := c
    have wf' := wf
    simp only [Memory.wfFrom, Bool.and_eq_true, decide_eq_true_eq] at wf
    obtain ⟨⟨⟨hk, hks⟩, hd⟩, hrest⟩ := wf
    unfold Memory.put
    split
    · simp only [Memory.wfFrom, Bool.and_eq_true, decide_eq_true_eq]
      exact ⟨⟨⟨hk, hks⟩, hd⟩, ih hrest (by omega)⟩
    · have tail : Memory.wfFrom size (a + 1) (if k = a then rest else (k, d) :: rest) = true := by
        split
        · next e => exact e ▸ hrest
        · simp only [Memory.wfFrom, Bool.and_eq_true, decide_eq_true_eq]
          exact ⟨⟨⟨by omega, hks⟩, hd⟩, hrest⟩
      dsimp only
      split
      · exact Memory.wfFrom_mono (by omega) tail
      · next hb =>
        simp only [Memory.wfFrom, Bool.and_eq_true, decide_eq_true_eq]
        exact ⟨⟨⟨h, ha⟩, hb⟩, tail⟩

/-- The address put reads as the byte put, in a canonical memory. -/
theorem Memory.read_put_same {size lo : Nat} {m : Memory} (wf : m.wfFrom size lo = true) (a : Nat) (b : Byte) :
    (m.put a b).read a = b := by
  induction m generalizing lo with
  | nil =>
    unfold Memory.put
    split
    · next e => simp [Memory.read, e]
    · simp [Memory.read]
  | cons c rest ih =>
    obtain ⟨k, d⟩ := c
    simp only [Memory.wfFrom, Bool.and_eq_true, decide_eq_true_eq] at wf
    unfold Memory.put
    split
    · rw [Memory.read, if_neg (by omega)]
      exact ih wf.2
    · dsimp only
      split
      · next hk hb =>
        subst hb
        split
        · exact Memory.read_below wf.2 (by omega)
        · rw [Memory.read, if_neg (by omega)]
          exact Memory.read_below wf.2 (by omega)
      · simp [Memory.read]

/-- Every other address reads as before. -/
theorem Memory.read_put_other (m : Memory) {a x : Nat} (h : x ≠ a) (b : Byte) : (m.put a b).read x = m.read x := by
  induction m with
  | nil =>
    unfold Memory.put
    split
    · rfl
    · simp [Memory.read, h.symm]
  | cons c rest ih =>
    obtain ⟨k, d⟩ := c
    have skip : k = a → Memory.read ((k, d) :: rest) x = Memory.read rest x := by
      rintro rfl
      simp [Memory.read, h.symm]
    unfold Memory.put
    split
    · simp only [Memory.read, ih]
    · dsimp only
      split <;> split <;> simp_all [Memory.read, Ne.symm]

/-- A write keeps the canonical form of memory. -/
theorem Memory.write_wf {m : Memory} (wf : m.wf = true) (a : Nat) (b : Byte) : (m.write a b).wf = true := by
  unfold Memory.write
  split
  · next ha => exact Memory.put_wfFrom wf (Nat.zero_le _) ha b
  · exact wf

/-- A read after a write to the same cell gives the byte written. -/
theorem Memory.read_write_same {m : Memory} (wf : m.wf = true) {a : Nat} (h : a < 4096) (b : Byte) :
    (m.write a b).read a = b := by
  rw [Memory.write, if_pos h]
  exact Memory.read_put_same wf a b

/-- A write leaves every other cell alone. -/
theorem Memory.read_write_other (m : Memory) {a x : Nat} (h : x ≠ a) (b : Byte) :
    (m.write a b).read x = m.read x := by
  unfold Memory.write
  split
  · exact Memory.read_put_other m h b
  · rfl

/-- A block write keeps the canonical form of memory. -/
theorem Memory.writeBlock_wf {m : Memory} (wf : m.wf = true) (a : Nat) (bs : List Byte) :
    (m.writeBlock a bs).wf = true := by
  induction bs generalizing m a with
  | nil => exact wf
  | cons b bs ih => exact ih (Memory.write_wf wf a b) (a + 1)

/-- A block write leaves every cell outside the block alone. -/
theorem Memory.read_writeBlock_outside (m : Memory) {a x : Nat} {bs : List Byte} (h : x < a ∨ a + bs.length ≤ x) :
    (m.writeBlock a bs).read x = m.read x := by
  induction bs generalizing m a with
  | nil => rfl
  | cons b bs ih =>
    simp only [List.length_cons] at h
    rw [Memory.writeBlock, ih _ (by omega), Memory.read_write_other _ (by omega)]

/-- A block write that fits in memory puts its bytes in ascending order. -/
theorem Memory.read_writeBlock_inside {m : Memory} (wf : m.wf = true) {a k : Nat} {bs : List Byte}
    (fits : a + bs.length ≤ 4096) (hk : k < bs.length) : (m.writeBlock a bs).read (a + k) = bs[k] := by
  induction bs generalizing m a k with
  | nil => simp at hk
  | cons b bs ih =>
    simp only [List.length_cons] at fits hk
    rw [Memory.writeBlock]
    cases k with
    | zero =>
      rw [Memory.read_writeBlock_outside _ (by omega), Nat.add_zero, Memory.read_write_same wf (by omega)]
      rfl
    | succ k =>
      have := ih (Memory.write_wf wf a b) (a := a + 1) (k := k) (by omega) (by omega)
      rw [show a + (k + 1) = a + 1 + k by omega, this]
      rfl

/-- A block read has the length asked for. -/
@[simp] theorem Memory.length_readBlock (m : Memory) (a n : Nat) : (m.readBlock a n).length = n := by
  induction n generalizing a with
  | zero => rfl
  | succ n ih => simp [Memory.readBlock, ih]

/-- A block read lists the cells in ascending order. -/
theorem Memory.getElem_readBlock (m : Memory) (a n : Nat) {k : Nat} (h : k < (m.readBlock a n).length) :
    (m.readBlock a n)[k] = m.read (a + k) := by
  induction n generalizing a k with
  | zero => simp at h
  | succ n ih =>
    cases k with
    | zero => rfl
    | succ k =>
      simp only [Memory.readBlock, List.getElem_cons_succ]
      rw [ih, show a + 1 + k = a + (k + 1) by omega]

/-- Canonical memories with equal reads are equal. -/
theorem Memory.eq_of_read {size lo : Nat} {m m' : Memory} (wf : m.wfFrom size lo = true)
    (wf' : m'.wfFrom size lo = true) (h : ∀ a, m.read a = m'.read a) : m = m' := by
  induction m generalizing lo m' with
  | nil =>
    cases m' with
    | nil => rfl
    | cons c rest =>
      have := h c.1
      simp_all [Memory.wfFrom, Memory.read]
  | cons c rest ih =>
    obtain ⟨k, b⟩ := c
    have wf0 := wf
    simp only [Memory.wfFrom, Bool.and_eq_true, decide_eq_true_eq] at wf
    cases m' with
    | nil =>
      have := h k
      simp_all [Memory.read]
    | cons c' rest' =>
      obtain ⟨k', b'⟩ := c'
      have wf0' := wf'
      simp only [Memory.wfFrom, Bool.and_eq_true, decide_eq_true_eq] at wf'
      have hk : k = k' := by
        rcases Nat.lt_trichotomy k k' with hlt | rfl | hlt
        · have := h k
          rw [Memory.read, if_pos rfl, Memory.read, if_neg (by omega), Memory.read_below wf'.2 (by omega)] at this
          exact absurd this wf.1.2
        · rfl
        · have := h k'
          rw [Memory.read, if_neg (by omega), Memory.read_below wf.2 (by omega), Memory.read, if_pos rfl] at this
          exact absurd this.symm wf'.1.2
      subst hk
      have hb : b = b' := by simpa [Memory.read] using h k
      subst hb
      rw [ih wf.2 wf'.2 fun a => ?_]
      by_cases e : k = a
      · subst e
        rw [Memory.read_below wf.2 (by omega), Memory.read_below wf'.2 (by omega)]
      · simpa [Memory.read, e] using h a

end Sys2Proof.Machine
end

