-- ==== Sys2Proof/Laws/State.lean ====
section
/-! SUPPORT. One lemma per field per update of the state, so that no proof unfolds a record update. -/

namespace Sys2Proof.Machine

variable (s : State)

/-! `withMem` -/

section
variable (m : Memory)
@[simp] theorem State.withMem_mem : (s.withMem m).mem = m := rfl
@[simp] theorem State.withMem_v : (s.withMem m).v = s.v := rfl
@[simp] theorem State.withMem_i : (s.withMem m).i = s.i := rfl
@[simp] theorem State.withMem_pc : (s.withMem m).pc = s.pc := rfl
@[simp] theorem State.withMem_sp : (s.withMem m).sp = s.sp := rfl
@[simp] theorem State.withMem_stack : (s.withMem m).stack = s.stack := rfl
@[simp] theorem State.withMem_dt : (s.withMem m).dt = s.dt := rfl
@[simp] theorem State.withMem_st : (s.withMem m).st = s.st := rfl
@[simp] theorem State.withMem_disp : (s.withMem m).disp = s.disp := rfl
@[simp] theorem State.withMem_trun : (s.withMem m).trun = s.trun := rfl
@[simp] theorem State.withMem_mode : (s.withMem m).mode = s.mode := rfl
@[simp] theorem State.withMem_fcause : (s.withMem m).fcause = s.fcause := rfl
@[simp] theorem State.withMem_faddr : (s.withMem m).faddr = s.faddr := rfl
@[simp] theorem State.withMem_fopc : (s.withMem m).fopc = s.fopc := rfl
@[simp] theorem State.withMem_agenda : (s.withMem m).agenda = s.agenda := rfl
@[simp] theorem State.withMem_reply : (s.withMem m).reply = s.reply := rfl
end

/-! `withV` -/

section
variable (vs : Vector Byte 16)
@[simp] theorem State.withV_mem : (s.withV vs).mem = s.mem := rfl
@[simp] theorem State.withV_v : (s.withV vs).v = vs := rfl
@[simp] theorem State.withV_i : (s.withV vs).i = s.i := rfl
@[simp] theorem State.withV_pc : (s.withV vs).pc = s.pc := rfl
@[simp] theorem State.withV_sp : (s.withV vs).sp = s.sp := rfl
@[simp] theorem State.withV_stack : (s.withV vs).stack = s.stack := rfl
@[simp] theorem State.withV_dt : (s.withV vs).dt = s.dt := rfl
@[simp] theorem State.withV_st : (s.withV vs).st = s.st := rfl
@[simp] theorem State.withV_disp : (s.withV vs).disp = s.disp := rfl
@[simp] theorem State.withV_trun : (s.withV vs).trun = s.trun := rfl
@[simp] theorem State.withV_mode : (s.withV vs).mode = s.mode := rfl
@[simp] theorem State.withV_fcause : (s.withV vs).fcause = s.fcause := rfl
@[simp] theorem State.withV_faddr : (s.withV vs).faddr = s.faddr := rfl
@[simp] theorem State.withV_fopc : (s.withV vs).fopc = s.fopc := rfl
@[simp] theorem State.withV_agenda : (s.withV vs).agenda = s.agenda := rfl
@[simp] theorem State.withV_reply : (s.withV vs).reply = s.reply := rfl
end

/-! `withI` -/

section
variable (w : Word)
@[simp] theorem State.withI_mem : (s.withI w).mem = s.mem := rfl
@[simp] theorem State.withI_v : (s.withI w).v = s.v := rfl
@[simp] theorem State.withI_i : (s.withI w).i = w := rfl
@[simp] theorem State.withI_pc : (s.withI w).pc = s.pc := rfl
@[simp] theorem State.withI_sp : (s.withI w).sp = s.sp := rfl
@[simp] theorem State.withI_stack : (s.withI w).stack = s.stack := rfl
@[simp] theorem State.withI_dt : (s.withI w).dt = s.dt := rfl
@[simp] theorem State.withI_st : (s.withI w).st = s.st := rfl
@[simp] theorem State.withI_disp : (s.withI w).disp = s.disp := rfl
@[simp] theorem State.withI_trun : (s.withI w).trun = s.trun := rfl
@[simp] theorem State.withI_mode : (s.withI w).mode = s.mode := rfl
@[simp] theorem State.withI_fcause : (s.withI w).fcause = s.fcause := rfl
@[simp] theorem State.withI_faddr : (s.withI w).faddr = s.faddr := rfl
@[simp] theorem State.withI_fopc : (s.withI w).fopc = s.fopc := rfl
@[simp] theorem State.withI_agenda : (s.withI w).agenda = s.agenda := rfl
@[simp] theorem State.withI_reply : (s.withI w).reply = s.reply := rfl
end

/-! `withPC` -/

section
variable (w : Word)
@[simp] theorem State.withPC_mem : (s.withPC w).mem = s.mem := rfl
@[simp] theorem State.withPC_v : (s.withPC w).v = s.v := rfl
@[simp] theorem State.withPC_i : (s.withPC w).i = s.i := rfl
@[simp] theorem State.withPC_pc : (s.withPC w).pc = w := rfl
@[simp] theorem State.withPC_sp : (s.withPC w).sp = s.sp := rfl
@[simp] theorem State.withPC_stack : (s.withPC w).stack = s.stack := rfl
@[simp] theorem State.withPC_dt : (s.withPC w).dt = s.dt := rfl
@[simp] theorem State.withPC_st : (s.withPC w).st = s.st := rfl
@[simp] theorem State.withPC_disp : (s.withPC w).disp = s.disp := rfl
@[simp] theorem State.withPC_trun : (s.withPC w).trun = s.trun := rfl
@[simp] theorem State.withPC_mode : (s.withPC w).mode = s.mode := rfl
@[simp] theorem State.withPC_fcause : (s.withPC w).fcause = s.fcause := rfl
@[simp] theorem State.withPC_faddr : (s.withPC w).faddr = s.faddr := rfl
@[simp] theorem State.withPC_fopc : (s.withPC w).fopc = s.fopc := rfl
@[simp] theorem State.withPC_agenda : (s.withPC w).agenda = s.agenda := rfl
@[simp] theorem State.withPC_reply : (s.withPC w).reply = s.reply := rfl
end

/-! `withSP` -/

section
variable (p : BitVec 5)
@[simp] theorem State.withSP_mem : (s.withSP p).mem = s.mem := rfl
@[simp] theorem State.withSP_v : (s.withSP p).v = s.v := rfl
@[simp] theorem State.withSP_i : (s.withSP p).i = s.i := rfl
@[simp] theorem State.withSP_pc : (s.withSP p).pc = s.pc := rfl
@[simp] theorem State.withSP_sp : (s.withSP p).sp = p := rfl
@[simp] theorem State.withSP_stack : (s.withSP p).stack = s.stack := rfl
@[simp] theorem State.withSP_dt : (s.withSP p).dt = s.dt := rfl
@[simp] theorem State.withSP_st : (s.withSP p).st = s.st := rfl
@[simp] theorem State.withSP_disp : (s.withSP p).disp = s.disp := rfl
@[simp] theorem State.withSP_trun : (s.withSP p).trun = s.trun := rfl
@[simp] theorem State.withSP_mode : (s.withSP p).mode = s.mode := rfl
@[simp] theorem State.withSP_fcause : (s.withSP p).fcause = s.fcause := rfl
@[simp] theorem State.withSP_faddr : (s.withSP p).faddr = s.faddr := rfl
@[simp] theorem State.withSP_fopc : (s.withSP p).fopc = s.fopc := rfl
@[simp] theorem State.withSP_agenda : (s.withSP p).agenda = s.agenda := rfl
@[simp] theorem State.withSP_reply : (s.withSP p).reply = s.reply := rfl
end

/-! `withStack` -/

section
variable (ws : Vector Word 16)
@[simp] theorem State.withStack_mem : (s.withStack ws).mem = s.mem := rfl
@[simp] theorem State.withStack_v : (s.withStack ws).v = s.v := rfl
@[simp] theorem State.withStack_i : (s.withStack ws).i = s.i := rfl
@[simp] theorem State.withStack_pc : (s.withStack ws).pc = s.pc := rfl
@[simp] theorem State.withStack_sp : (s.withStack ws).sp = s.sp := rfl
@[simp] theorem State.withStack_stack : (s.withStack ws).stack = ws := rfl
@[simp] theorem State.withStack_dt : (s.withStack ws).dt = s.dt := rfl
@[simp] theorem State.withStack_st : (s.withStack ws).st = s.st := rfl
@[simp] theorem State.withStack_disp : (s.withStack ws).disp = s.disp := rfl
@[simp] theorem State.withStack_trun : (s.withStack ws).trun = s.trun := rfl
@[simp] theorem State.withStack_mode : (s.withStack ws).mode = s.mode := rfl
@[simp] theorem State.withStack_fcause : (s.withStack ws).fcause = s.fcause := rfl
@[simp] theorem State.withStack_faddr : (s.withStack ws).faddr = s.faddr := rfl
@[simp] theorem State.withStack_fopc : (s.withStack ws).fopc = s.fopc := rfl
@[simp] theorem State.withStack_agenda : (s.withStack ws).agenda = s.agenda := rfl
@[simp] theorem State.withStack_reply : (s.withStack ws).reply = s.reply := rfl
end

/-! `withDT` -/

section
variable (b : Byte)
@[simp] theorem State.withDT_mem : (s.withDT b).mem = s.mem := rfl
@[simp] theorem State.withDT_v : (s.withDT b).v = s.v := rfl
@[simp] theorem State.withDT_i : (s.withDT b).i = s.i := rfl
@[simp] theorem State.withDT_pc : (s.withDT b).pc = s.pc := rfl
@[simp] theorem State.withDT_sp : (s.withDT b).sp = s.sp := rfl
@[simp] theorem State.withDT_stack : (s.withDT b).stack = s.stack := rfl
@[simp] theorem State.withDT_dt : (s.withDT b).dt = b := rfl
@[simp] theorem State.withDT_st : (s.withDT b).st = s.st := rfl
@[simp] theorem State.withDT_disp : (s.withDT b).disp = s.disp := rfl
@[simp] theorem State.withDT_trun : (s.withDT b).trun = s.trun := rfl
@[simp] theorem State.withDT_mode : (s.withDT b).mode = s.mode := rfl
@[simp] theorem State.withDT_fcause : (s.withDT b).fcause = s.fcause := rfl
@[simp] theorem State.withDT_faddr : (s.withDT b).faddr = s.faddr := rfl
@[simp] theorem State.withDT_fopc : (s.withDT b).fopc = s.fopc := rfl
@[simp] theorem State.withDT_agenda : (s.withDT b).agenda = s.agenda := rfl
@[simp] theorem State.withDT_reply : (s.withDT b).reply = s.reply := rfl
end

/-! `withST` -/

section
variable (b : Byte)
@[simp] theorem State.withST_mem : (s.withST b).mem = s.mem := rfl
@[simp] theorem State.withST_v : (s.withST b).v = s.v := rfl
@[simp] theorem State.withST_i : (s.withST b).i = s.i := rfl
@[simp] theorem State.withST_pc : (s.withST b).pc = s.pc := rfl
@[simp] theorem State.withST_sp : (s.withST b).sp = s.sp := rfl
@[simp] theorem State.withST_stack : (s.withST b).stack = s.stack := rfl
@[simp] theorem State.withST_dt : (s.withST b).dt = s.dt := rfl
@[simp] theorem State.withST_st : (s.withST b).st = b := rfl
@[simp] theorem State.withST_disp : (s.withST b).disp = s.disp := rfl
@[simp] theorem State.withST_trun : (s.withST b).trun = s.trun := rfl
@[simp] theorem State.withST_mode : (s.withST b).mode = s.mode := rfl
@[simp] theorem State.withST_fcause : (s.withST b).fcause = s.fcause := rfl
@[simp] theorem State.withST_faddr : (s.withST b).faddr = s.faddr := rfl
@[simp] theorem State.withST_fopc : (s.withST b).fopc = s.fopc := rfl
@[simp] theorem State.withST_agenda : (s.withST b).agenda = s.agenda := rfl
@[simp] theorem State.withST_reply : (s.withST b).reply = s.reply := rfl
end

/-! `withDisp` -/

section
variable (m : Memory)
@[simp] theorem State.withDisp_mem : (s.withDisp m).mem = s.mem := rfl
@[simp] theorem State.withDisp_v : (s.withDisp m).v = s.v := rfl
@[simp] theorem State.withDisp_i : (s.withDisp m).i = s.i := rfl
@[simp] theorem State.withDisp_pc : (s.withDisp m).pc = s.pc := rfl
@[simp] theorem State.withDisp_sp : (s.withDisp m).sp = s.sp := rfl
@[simp] theorem State.withDisp_stack : (s.withDisp m).stack = s.stack := rfl
@[simp] theorem State.withDisp_dt : (s.withDisp m).dt = s.dt := rfl
@[simp] theorem State.withDisp_st : (s.withDisp m).st = s.st := rfl
@[simp] theorem State.withDisp_disp : (s.withDisp m).disp = m := rfl
@[simp] theorem State.withDisp_trun : (s.withDisp m).trun = s.trun := rfl
@[simp] theorem State.withDisp_mode : (s.withDisp m).mode = s.mode := rfl
@[simp] theorem State.withDisp_fcause : (s.withDisp m).fcause = s.fcause := rfl
@[simp] theorem State.withDisp_faddr : (s.withDisp m).faddr = s.faddr := rfl
@[simp] theorem State.withDisp_fopc : (s.withDisp m).fopc = s.fopc := rfl
@[simp] theorem State.withDisp_agenda : (s.withDisp m).agenda = s.agenda := rfl
@[simp] theorem State.withDisp_reply : (s.withDisp m).reply = s.reply := rfl
end

/-! `withTrun` -/

section
variable (b : Bool)
@[simp] theorem State.withTrun_mem : (s.withTrun b).mem = s.mem := rfl
@[simp] theorem State.withTrun_v : (s.withTrun b).v = s.v := rfl
@[simp] theorem State.withTrun_i : (s.withTrun b).i = s.i := rfl
@[simp] theorem State.withTrun_pc : (s.withTrun b).pc = s.pc := rfl
@[simp] theorem State.withTrun_sp : (s.withTrun b).sp = s.sp := rfl
@[simp] theorem State.withTrun_stack : (s.withTrun b).stack = s.stack := rfl
@[simp] theorem State.withTrun_dt : (s.withTrun b).dt = s.dt := rfl
@[simp] theorem State.withTrun_st : (s.withTrun b).st = s.st := rfl
@[simp] theorem State.withTrun_disp : (s.withTrun b).disp = s.disp := rfl
@[simp] theorem State.withTrun_trun : (s.withTrun b).trun = b := rfl
@[simp] theorem State.withTrun_mode : (s.withTrun b).mode = s.mode := rfl
@[simp] theorem State.withTrun_fcause : (s.withTrun b).fcause = s.fcause := rfl
@[simp] theorem State.withTrun_faddr : (s.withTrun b).faddr = s.faddr := rfl
@[simp] theorem State.withTrun_fopc : (s.withTrun b).fopc = s.fopc := rfl
@[simp] theorem State.withTrun_agenda : (s.withTrun b).agenda = s.agenda := rfl
@[simp] theorem State.withTrun_reply : (s.withTrun b).reply = s.reply := rfl
end

/-! `withMode` -/

section
variable (m : Mode)
@[simp] theorem State.withMode_mem : (s.withMode m).mem = s.mem := rfl
@[simp] theorem State.withMode_v : (s.withMode m).v = s.v := rfl
@[simp] theorem State.withMode_i : (s.withMode m).i = s.i := rfl
@[simp] theorem State.withMode_pc : (s.withMode m).pc = s.pc := rfl
@[simp] theorem State.withMode_sp : (s.withMode m).sp = s.sp := rfl
@[simp] theorem State.withMode_stack : (s.withMode m).stack = s.stack := rfl
@[simp] theorem State.withMode_dt : (s.withMode m).dt = s.dt := rfl
@[simp] theorem State.withMode_st : (s.withMode m).st = s.st := rfl
@[simp] theorem State.withMode_disp : (s.withMode m).disp = s.disp := rfl
@[simp] theorem State.withMode_trun : (s.withMode m).trun = s.trun := rfl
@[simp] theorem State.withMode_mode : (s.withMode m).mode = m := rfl
@[simp] theorem State.withMode_fcause : (s.withMode m).fcause = s.fcause := rfl
@[simp] theorem State.withMode_faddr : (s.withMode m).faddr = s.faddr := rfl
@[simp] theorem State.withMode_fopc : (s.withMode m).fopc = s.fopc := rfl
@[simp] theorem State.withMode_agenda : (s.withMode m).agenda = s.agenda := rfl
@[simp] theorem State.withMode_reply : (s.withMode m).reply = s.reply := rfl
end

/-! `withReport` -/

section
variable (c : Cause) (addr opc : Word)
@[simp] theorem State.withReport_mem : (s.withReport c addr opc).mem = s.mem := rfl
@[simp] theorem State.withReport_v : (s.withReport c addr opc).v = s.v := rfl
@[simp] theorem State.withReport_i : (s.withReport c addr opc).i = s.i := rfl
@[simp] theorem State.withReport_pc : (s.withReport c addr opc).pc = s.pc := rfl
@[simp] theorem State.withReport_sp : (s.withReport c addr opc).sp = s.sp := rfl
@[simp] theorem State.withReport_stack : (s.withReport c addr opc).stack = s.stack := rfl
@[simp] theorem State.withReport_dt : (s.withReport c addr opc).dt = s.dt := rfl
@[simp] theorem State.withReport_st : (s.withReport c addr opc).st = s.st := rfl
@[simp] theorem State.withReport_disp : (s.withReport c addr opc).disp = s.disp := rfl
@[simp] theorem State.withReport_trun : (s.withReport c addr opc).trun = s.trun := rfl
@[simp] theorem State.withReport_mode : (s.withReport c addr opc).mode = s.mode := rfl
@[simp] theorem State.withReport_fcause : (s.withReport c addr opc).fcause = c := rfl
@[simp] theorem State.withReport_faddr : (s.withReport c addr opc).faddr = addr := rfl
@[simp] theorem State.withReport_fopc : (s.withReport c addr opc).fopc = opc := rfl
@[simp] theorem State.withReport_agenda : (s.withReport c addr opc).agenda = s.agenda := rfl
@[simp] theorem State.withReport_reply : (s.withReport c addr opc).reply = s.reply := rfl
end

/-! `withAgenda` -/

section
variable (as : List Action)
@[simp] theorem State.withAgenda_mem : (s.withAgenda as).mem = s.mem := rfl
@[simp] theorem State.withAgenda_v : (s.withAgenda as).v = s.v := rfl
@[simp] theorem State.withAgenda_i : (s.withAgenda as).i = s.i := rfl
@[simp] theorem State.withAgenda_pc : (s.withAgenda as).pc = s.pc := rfl
@[simp] theorem State.withAgenda_sp : (s.withAgenda as).sp = s.sp := rfl
@[simp] theorem State.withAgenda_stack : (s.withAgenda as).stack = s.stack := rfl
@[simp] theorem State.withAgenda_dt : (s.withAgenda as).dt = s.dt := rfl
@[simp] theorem State.withAgenda_st : (s.withAgenda as).st = s.st := rfl
@[simp] theorem State.withAgenda_disp : (s.withAgenda as).disp = s.disp := rfl
@[simp] theorem State.withAgenda_trun : (s.withAgenda as).trun = s.trun := rfl
@[simp] theorem State.withAgenda_mode : (s.withAgenda as).mode = s.mode := rfl
@[simp] theorem State.withAgenda_fcause : (s.withAgenda as).fcause = s.fcause := rfl
@[simp] theorem State.withAgenda_faddr : (s.withAgenda as).faddr = s.faddr := rfl
@[simp] theorem State.withAgenda_fopc : (s.withAgenda as).fopc = s.fopc := rfl
@[simp] theorem State.withAgenda_agenda : (s.withAgenda as).agenda = as := rfl
@[simp] theorem State.withAgenda_reply : (s.withAgenda as).reply = s.reply := rfl
end

/-! `withReply` -/

section
variable (r : Reply)
@[simp] theorem State.withReply_mem : (s.withReply r).mem = s.mem := rfl
@[simp] theorem State.withReply_v : (s.withReply r).v = s.v := rfl
@[simp] theorem State.withReply_i : (s.withReply r).i = s.i := rfl
@[simp] theorem State.withReply_pc : (s.withReply r).pc = s.pc := rfl
@[simp] theorem State.withReply_sp : (s.withReply r).sp = s.sp := rfl
@[simp] theorem State.withReply_stack : (s.withReply r).stack = s.stack := rfl
@[simp] theorem State.withReply_dt : (s.withReply r).dt = s.dt := rfl
@[simp] theorem State.withReply_st : (s.withReply r).st = s.st := rfl
@[simp] theorem State.withReply_disp : (s.withReply r).disp = s.disp := rfl
@[simp] theorem State.withReply_trun : (s.withReply r).trun = s.trun := rfl
@[simp] theorem State.withReply_mode : (s.withReply r).mode = s.mode := rfl
@[simp] theorem State.withReply_fcause : (s.withReply r).fcause = s.fcause := rfl
@[simp] theorem State.withReply_faddr : (s.withReply r).faddr = s.faddr := rfl
@[simp] theorem State.withReply_fopc : (s.withReply r).fopc = s.fopc := rfl
@[simp] theorem State.withReply_agenda : (s.withReply r).agenda = s.agenda := rfl
@[simp] theorem State.withReply_reply : (s.withReply r).reply = r := rfl
end

end Sys2Proof.Machine
end

