-- ==== Sys2Proof/Laws/Ops.lean ====
section
/-! SUPPORT. For each shared operation, what it can do: the value it writes and the frame around it. Proofs cite these and
do not unfold the operation. -/

namespace Sys2Proof.Machine

theorem memSize_eq : Config.memSize = 4096 := rfl

/-! ## Frames -/

theorem UnchangedBut.refl (ps : List Part) (s : State) : UnchangedBut ps s s := by
  intro p _
  cases p <;> simp [Part.Same]

theorem Part.Same.trans {p : Part} {s t u : State} (h : p.Same s t) (k : p.Same t u) : p.Same s u := by
  cases p <;> simp_all [Part.Same]

theorem UnchangedBut.mono {ps qs : List Part} {s t : State} (h : UnchangedBut ps s t) (sub : ps ⊆ qs) :
    UnchangedBut qs s t := fun p hp => h p fun hq => hp (sub hq)

theorem UnchangedBut.trans {ps : List Part} {s t u : State} (h : UnchangedBut ps s t) (k : UnchangedBut ps t u) :
    UnchangedBut ps s u := fun p hp => (h p hp).trans (k p hp)

theorem withV_frame (vs : Vector Byte 16) (s : State) : UnchangedBut [.v] s (s.withV vs) := by
  intro p hp
  cases p <;> simp_all [Part.Same]

theorem withI_frame (w : Word) (s : State) : UnchangedBut [.i] s (s.withI w) := by
  intro p hp
  cases p <;> simp_all [Part.Same, State.reg]

theorem withPC_frame (w : Word) (s : State) : UnchangedBut [.pc] s (s.withPC w) := by
  intro p hp
  cases p <;> simp_all [Part.Same, State.reg]

theorem withST_frame (b : Byte) (s : State) : UnchangedBut [.st] s (s.withST b) := by
  intro p hp
  cases p <;> simp_all [Part.Same, State.reg]

theorem withMem_frame (m : Memory) (s : State) : UnchangedBut [.mem] s (s.withMem m) := by
  intro p hp
  cases p <;> simp_all [Part.Same, State.reg]

/-! ## Registers -/

@[simp] theorem reg_withV (vs : Vector Byte 16) (s : State) (x : Reg) : (s.withV vs).reg x = vs[x.toNat]'x.isLt := rfl

theorem reg_setReg_same (x : Reg) (b : Byte) (s : State) : (s.setReg x b).reg x = b := by
  simp [State.setReg]

theorem reg_setReg_other {x r : Reg} (h : r ≠ x) (b : Byte) (s : State) : (s.setReg x b).reg r = s.reg r := by
  have : x.toNat ≠ r.toNat := fun e => h (BitVec.eq_of_toNat_eq e.symm)
  simp [State.setReg, State.reg, this]

theorem setReg_frame (x : Reg) (b : Byte) (s : State) : UnchangedBut [.v] s (s.setReg x b) := withV_frame _ s

/-! ## Skips and the display -/

theorem skipIf_pc (c : Bool) (s : State) : (skipIf c s).pc = if c then s.pc + 2 else s.pc := by
  cases c <;> simp [skipIf, State.advance]

theorem skipIf_frame (c : Bool) (s : State) : UnchangedBut [.pc] s (skipIf c s) := by
  cases c
  · exact UnchangedBut.refl _ s
  · exact withPC_frame _ s

theorem clearDisplay_read (s : State) (k : Nat) : Memory.read (clearDisplay s).disp k = 0 := rfl

theorem clearDisplay_frame (s : State) : UnchangedBut [.disp] s (clearDisplay s) := by
  intro p hp
  cases p <;> simp_all [Part.Same, State.reg, clearDisplay]

/-! ## Call stack -/

theorem pushReturn_sp (s : State) : (pushReturn s).sp = s.sp + 1 := rfl

theorem pushReturn_entry {s : State} {k : Nat} (hk : k < 16) :
    (pushReturn s).stack[k] = if s.sp.toNat = k then s.pc else s.stack[k] := by
  simp [pushReturn, Vector.getElem_setIfInBounds]

theorem pushReturn_frame (s : State) : UnchangedBut [.sp, .stack] s (pushReturn s) := by
  intro p hp
  cases p <;> simp_all [Part.Same, State.reg, pushReturn]

/-- Below a non-empty stack of at most 16 entries the slot popped exists. -/
theorem popReturn_eq {s : State} (h0 : s.sp ≠ 0) (h16 : s.sp.toNat ≤ 16) :
    ∃ h : s.sp.toNat - 1 < 16, popReturn s = some ((s.withSP (s.sp - 1)).withPC s.stack[s.sp.toNat - 1]) := by
  have pos : s.sp.toNat ≠ 0 := fun e => h0 (BitVec.eq_of_toNat_eq e)
  have sub : (s.sp - 1).toNat = s.sp.toNat - 1 := by
    rw [BitVec.toNat_sub_of_le (by rw [BitVec.le_def]; simp; omega)]
    rfl
  refine ⟨by omega, ?_⟩
  unfold popReturn
  rw [Vector.getElem?_eq_getElem (by omega)]
  simp only [sub]

/-- With SP at 17 to 31 the slot does not exist. -/
theorem popReturn_none {s : State} (h : 17 ≤ s.sp.toNat) : popReturn s = none := by
  have sub : (s.sp - 1).toNat = s.sp.toNat - 1 := by
    rw [BitVec.toNat_sub_of_le (by rw [BitVec.le_def]; simp; omega)]
    rfl
  unfold popReturn
  rw [Vector.getElem?_eq_none (by omega)]

/-! ## Block transfers -/

theorem blockOutside_iff (x : Reg) (s : State) : blockOutside x s = true ↔ 0xFFF < s.i.toNat + x.toNat := by
  simp only [blockOutside, decide_eq_true_eq, memSize_eq]
  omega

theorem length_registersUpTo (x : Reg) (s : State) : (registersUpTo x s).length = x.toNat + 1 := by
  have := x.isLt
  simp [registersUpTo]
  omega

theorem getElem_registersUpTo {x : Reg} {s : State} {k : Nat} (h : k < (registersUpTo x s).length) :
    (registersUpTo x s)[k] = s.reg (BitVec.ofNat 4 k) := by
  have hx := x.isLt
  rw [length_registersUpTo] at h
  have hk : k % 16 = k := Nat.mod_eq_of_lt (by omega)
  simp [registersUpTo, State.reg, hk]

/-- Inside the block the store puts `V[k]` at `I + k`. -/
theorem read_storeBlock_inside {x : Reg} {s : State} (wf : s.mem.wf = true) (fits : s.i.toNat + x.toNat ≤ 0xFFF)
    {k : Nat} (hk : k ≤ x.toNat) : (storeBlock x s).mem.read (s.i.toNat + k) = s.reg (BitVec.ofNat 4 k) := by
  have len := length_registersUpTo x s
  have inside := Memory.read_writeBlock_inside wf (a := s.i.toNat) (k := k) (bs := registersUpTo x s)
    (by omega) (by omega)
  rw [storeBlock, State.withMem_mem, inside, getElem_registersUpTo]

/-- Outside the block the store changes no cell. -/
theorem read_storeBlock_outside {x : Reg} {s : State} {a : Nat} (h : a < s.i.toNat ∨ s.i.toNat + x.toNat < a) :
    (storeBlock x s).mem.read a = s.mem.read a := by
  have len := length_registersUpTo x s
  rw [storeBlock, State.withMem_mem, Memory.read_writeBlock_outside _ (by omega)]

theorem storeBlock_frame (x : Reg) (s : State) : UnchangedBut [.mem] s (storeBlock x s) := withMem_frame _ s

theorem storeBlock_wf {s : State} (wf : s.mem.wf = true) (x : Reg) : (storeBlock x s).mem.wf = true :=
  Memory.writeBlock_wf wf _ _

theorem reg_loadBlock (x r : Reg) (s : State) :
    (loadBlock x s).reg r = if r.toNat ≤ x.toNat then s.mem.read (s.i.toNat + r.toNat) else s.reg r := by
  simp [loadBlock, State.reg]

theorem loadBlock_frame (x : Reg) (s : State) : UnchangedBut [.v] s (loadBlock x s) := withV_frame _ s

/-! ## Faults and reset -/

theorem takeFault_report (c : Cause) (addr opc : Word) (s : State) :
    (takeFault c addr opc s).mode = .faulted ∧ (takeFault c addr opc s).fcause = c ∧
      (takeFault c addr opc s).faddr = addr ∧ (takeFault c addr opc s).fopc = opc := ⟨rfl, rfl, rfl, rfl⟩

theorem takeFault_frame (c : Cause) (addr opc : Word) (s : State) :
    UnchangedBut [.mode, .report] s (takeFault c addr opc s) := by
  intro p hp
  cases p <;> simp_all [Part.Same, State.reg, takeFault]

theorem executeFault_report (c : Cause) (ins : Instr) (s : State) :
    (executeFault c ins s).mode = .faulted ∧ (executeFault c ins s).fcause = c ∧
      (executeFault c ins s).faddr = s.pc - 2 ∧ (executeFault c ins s).fopc = encode ins := ⟨rfl, rfl, rfl, rfl⟩

theorem executeFault_frame (c : Cause) (ins : Instr) (s : State) :
    UnchangedBut [.mode, .report] s (executeFault c ins s) := takeFault_frame _ _ _ s

theorem fetchFault_frame (s : State) : UnchangedBut [.mode, .report] s (fetchFault s) := takeFault_frame _ _ _ s

theorem resetBlock_eq (s : State) : resetBlock s = State.reset.withAgenda s.agenda := rfl

/-! ## Timer -/

theorem lower_toNat (b : Byte) : (lower b).toNat = b.toNat - 1 := by
  unfold lower
  split
  · next e => simp [e]
  · next h =>
    have : b.toNat ≠ 0 := fun e => h (BitVec.eq_of_toNat_eq e)
    rw [BitVec.toNat_sub_of_le (by rw [BitVec.le_def]; simp; omega)]
    rfl

theorem tick_running {s : State} (h : s.trun = true) : tick s = (s.withDT (lower s.dt)).withST (lower s.st) := by
  simp [tick, h]

theorem tick_stopped {s : State} (h : s.trun = false) : tick s = s := by
  simp [tick, h]

theorem tick_frame (s : State) : UnchangedBut [.dt, .st] s (tick s) := by
  unfold tick
  split
  · intro p hp
    cases p <;> simp_all [Part.Same, State.reg]
  · exact UnchangedBut.refl _ s

/-! ## Fetch -/

theorem fetchWord_inside {s : State} (h : s.pc.toNat ≤ 0xFFE) :
    fetchWord s = some (wordOfBytes (s.mem.read s.pc.toNat) (s.mem.read (s.pc.toNat + 1))) := by
  simp only [fetchWord, Memory.checkedWord, Memory.checkedByte]
  rw [if_pos (by rw [memSize_eq]; omega), if_pos (by rw [memSize_eq]; omega)]

theorem fetchWord_outside {s : State} (h : 0xFFF ≤ s.pc.toNat) : fetchWord s = none := by
  simp only [fetchWord, Memory.checkedWord, Memory.checkedByte]
  rw [if_neg (c := s.pc.toNat + 1 < Config.memSize) (by rw [memSize_eq]; omega)]
  split <;> simp_all

/-- The one inversion of a fetch: it reads a word exactly when both its bytes lie in memory. -/
theorem fetchWord_eq_some {s : State} {op : Word} (h : fetchWord s = some op) :
    s.pc.toNat ≤ 0xFFE ∧ op = wordOfBytes (s.mem.read s.pc.toNat) (s.mem.read (s.pc.toNat + 1)) := by
  by_cases hp : s.pc.toNat ≤ 0xFFE
  · rw [fetchWord_inside hp, Option.some.injEq] at h
    exact ⟨hp, h.symm⟩
  · rw [fetchWord_outside (by omega)] at h
    cases h

/-- Where an instruction was fetched from, seen from its execute stage. -/
theorem addr0_advance (s : State) : s.advance.addr0 = s.pc := by
  simp [State.advance, State.addr0]

end Sys2Proof.Machine
end

