-- ==== Sys2Proof/Laws/PerInstr.lean ====
section
/-! SUPPORT. The per-instruction family `EncodesItsRow`: the word of each instruction matches a row of the opcode map
(spec/30_encoding.md R96) from which that row reads the instruction back; the word of a well-formed unrecognised term
matches no row. -/

namespace Sys2Proof.Laws.EncodesItsRow

/-- Some row of the map matches the instruction's word and reads the instruction from it. -/
def OfRow (i : Instr) : Prop := ∃ r ∈ rows, r.hits (encode i) = true ∧ r.build (encode i) = i

/-- No row of the map matches the instruction's word. -/
def OfNoRow (i : Instr) : Prop := ∀ r ∈ rows, r.hits (encode i) = false

/-- A well-formed instruction's word matches its own row, or no row when it is the default no-op. -/
def Statement : Instr → Prop
  | .unrecognised op => (Instr.unrecognised op).wellFormed = true → OfNoRow (.unrecognised op)
  | i => OfRow i

theorem cls : Statement .cls := ⟨_, List.mem_of_getElem? (i := 0) rfl, rfl, rfl⟩

theorem ret : Statement .ret := ⟨_, List.mem_of_getElem? (i := 1) rfl, rfl, rfl⟩

theorem ldFromDt (x : Reg) : Statement (.ldFromDt x) :=
  ⟨_, List.mem_of_getElem? (i := 2) rfl, by simp [Row.hits, encode], by simp [encode]⟩

theorem ldToSt (x : Reg) : Statement (.ldToSt x) :=
  ⟨_, List.mem_of_getElem? (i := 3) rfl, by simp [Row.hits, encode], by simp [encode]⟩

theorem addI (x : Reg) : Statement (.addI x) :=
  ⟨_, List.mem_of_getElem? (i := 4) rfl, by simp [Row.hits, encode], by simp [encode]⟩

theorem storeRegs (x : Reg) : Statement (.storeRegs x) :=
  ⟨_, List.mem_of_getElem? (i := 5) rfl, by simp [Row.hits, encode], by simp [encode]⟩

theorem loadRegs (x : Reg) : Statement (.loadRegs x) :=
  ⟨_, List.mem_of_getElem? (i := 6) rfl, by simp [Row.hits, encode], by simp [encode]⟩

theorem seReg (x y : Reg) : Statement (.seReg x y) :=
  ⟨_, List.mem_of_getElem? (i := 7) rfl, by simp [Row.hits, encode], by simp [encode]⟩

theorem ldReg (x y : Reg) : Statement (.ldReg x y) :=
  ⟨_, List.mem_of_getElem? (i := 8) rfl, by simp [Row.hits, encode], by simp [encode]⟩

theorem orReg (x y : Reg) : Statement (.orReg x y) :=
  ⟨_, List.mem_of_getElem? (i := 9) rfl, by simp [Row.hits, encode], by simp [encode]⟩

theorem andReg (x y : Reg) : Statement (.andReg x y) :=
  ⟨_, List.mem_of_getElem? (i := 10) rfl, by simp [Row.hits, encode], by simp [encode]⟩

theorem xorReg (x y : Reg) : Statement (.xorReg x y) :=
  ⟨_, List.mem_of_getElem? (i := 11) rfl, by simp [Row.hits, encode], by simp [encode]⟩

theorem jp (nnn : Addr) : Statement (.jp nnn) :=
  ⟨_, List.mem_of_getElem? (i := 12) rfl, by simp [Row.hits, encode], by simp [encode]⟩

theorem call (nnn : Addr) : Statement (.call nnn) :=
  ⟨_, List.mem_of_getElem? (i := 13) rfl, by simp [Row.hits, encode], by simp [encode]⟩

theorem seByte (x : Reg) (kk : Byte) : Statement (.seByte x kk) :=
  ⟨_, List.mem_of_getElem? (i := 14) rfl, by simp [Row.hits, encode], by simp [encode]⟩

theorem sneByte (x : Reg) (kk : Byte) : Statement (.sneByte x kk) :=
  ⟨_, List.mem_of_getElem? (i := 15) rfl, by simp [Row.hits, encode], by simp [encode]⟩

theorem ldByte (x : Reg) (kk : Byte) : Statement (.ldByte x kk) :=
  ⟨_, List.mem_of_getElem? (i := 16) rfl, by simp [Row.hits, encode], by simp [encode]⟩

theorem addByte (x : Reg) (kk : Byte) : Statement (.addByte x kk) :=
  ⟨_, List.mem_of_getElem? (i := 17) rfl, by simp [Row.hits, encode], by simp [encode]⟩

theorem ldI (nnn : Addr) : Statement (.ldI nnn) :=
  ⟨_, List.mem_of_getElem? (i := 18) rfl, by simp [Row.hits, encode], by simp [encode]⟩

theorem unrecognised (op : Word) : Statement (.unrecognised op) := by
  intro wf r hr
  by_contra h
  have := recognised_of_hits hr (op := op) (by simpa [encode] using h)
  simp [Instr.wellFormed, this] at wf

end Sys2Proof.Laws.EncodesItsRow
end

