-- ==== Sys2Proof/Laws/Step.lean ====
section
/-! SUPPORT. What each turn of the machine is, by cases: the step of the execution agent, the agenda, the port. -/

namespace Sys2Proof.Machine

/-- A step that can fetch executes the decoded word from the advanced state. -/
theorem instructionStep_fetched {s : State} {op : Word} (h : fetchWord s = some op) :
    instructionStep s = exec (decode op) s.advance := by
  simp [instructionStep, h]

/-- A step that cannot fetch takes the fetch fault. -/
theorem instructionStep_unfetched {s : State} (h : fetchWord s = none) : instructionStep s = .next (fetchFault s) := by
  simp [instructionStep, h]

theorem engineTurn_running {s : State} (h : s.mode = .running) : engineTurn s = instructionStep s := by
  simp [engineTurn, h]

theorem engineTurn_idle {s : State} (h : s.mode ≠ .running) : engineTurn s = .next s := by
  unfold engineTurn
  cases e : s.mode <;> simp_all

theorem stepOnce_stopped {s : State} (h : s.mode = .stopped) :
    stepOnce s = mapNext (fun t => t.withReply (stepOutcome t)) (instructionStep s) := by
  simp [stepOnce, h]

theorem stepOnce_ignored {s : State} (h : s.mode ≠ .stopped) : stepOnce s = .next (s.withReply .noValue) := by
  simp [stepOnce, h]

theorem mapNext_eq_next {f : State → State} {r : Result} {t : State} (h : mapNext f r = .next t) :
    ∃ u, r = .next u ∧ t = f u := by
  cases r <;> simp_all [mapNext]

theorem step_empty {s : State} (h : s.agenda = []) : step s = engineTurn s := by
  simp [step, nextAction, h]

theorem step_agenda {s : State} {a : Action} {rest : List Action} (h : s.agenda = a :: rest) :
    step s = perform a (s.withAgenda rest) := by
  simp [step, nextAction, h]

/-- Every port operation but `stepOnce` is a transaction that answers a next state. -/
theorem perform_port {op : PortOp} (h : op ≠ .stepOnce) (s : State) :
    perform (.port op) s = .next (portTransaction op s) := by
  cases op <;> first | rfl | exact absurd rfl h

/-- Every turn is one of: the engine's, a tick, `stepOnce`, another port transaction. -/
theorem perform_cases {a : Action} {s t : State} (h : perform a s = .next t) :
    (a = .engine ∧ engineTurn s = .next t) ∨ (a = .tick ∧ t = tick s) ∨
      (a = .port .stepOnce ∧ stepOnce s = .next t) ∨
      ∃ op, op ≠ .stepOnce ∧ a = .port op ∧ t = portTransaction op s := by
  cases a with
  | engine => exact .inl ⟨rfl, h⟩
  | tick => exact .inr (.inl ⟨rfl, (Host.Outcome.next.inj h).symm⟩)
  | port op =>
    by_cases e : op = .stepOnce
    · subst e
      exact .inr (.inr (.inl ⟨rfl, h⟩))
    · rw [perform_port e] at h
      exact .inr (.inr (.inr ⟨op, e, rfl, (Host.Outcome.next.inj h).symm⟩))

end Sys2Proof.Machine
end

