-- ==== Sys2Proof/Laws/Run.lean ====
section
/-! SUPPORT. Runs of several actions, one action at a time and in two parts: for any machine behind the host's interface,
then for this one. -/

namespace Sys2Proof.Machine

theorem coreRun_succ (M : Host.Core) {s t : M.State} (h : M.step s = .next t) (n : Nat) :
    M.run (n + 1) s = M.run n t := by
  rw [Host.Core.run, h]

theorem coreRun_add (M : Host.Core) {m : Nat} {s t : M.State} (h : M.run m s = .next t) (n : Nat) :
    M.run (m + n) s = M.run n t := by
  induction m generalizing s with
  | zero =>
    cases h
    rw [Nat.zero_add]
  | succ m ih =>
    rw [Host.Core.run] at h
    cases e : M.step s with
    | next u =>
      rw [e] at h
      rw [Nat.succ_add, coreRun_succ M e]
      exact ih h
    | fault r =>
      rw [e] at h
      cases h
    | refused r =>
      rw [e] at h
      cases h

theorem run_zero (s : State) : core.run 0 s = .next s := rfl

theorem run_succ {s t : State} (h : step s = .next t) (n : Nat) : core.run (n + 1) s = core.run n t :=
  coreRun_succ core h n

theorem run_add {m : Nat} {s t : State} (h : core.run m s = .next t) (n : Nat) : core.run (m + n) s = core.run n t :=
  coreRun_add core h n

end Sys2Proof.Machine
end

