-- ==== Sys2Proof/Machine/Listing.lean ====
section
/-! DEFINITION. The assembler spelling of the instructions (spec/30_encoding.md R96 Name column, R101) and the two listing
words of R102 and decision D23: `DW` and `NOP`. Nothing the machine does depends on it. -/

namespace Sys2Proof.Machine

/-- One hex digit, capital as in VA to VF. -/
def hexDigit (d : BitVec 4) : String :=
  match d.toNat with
  | 0 => "0" | 1 => "1" | 2 => "2" | 3 => "3" | 4 => "4" | 5 => "5" | 6 => "6" | 7 => "7"
  | 8 => "8" | 9 => "9" | 10 => "A" | 11 => "B" | 12 => "C" | 13 => "D" | 14 => "E" | _ => "F"

/-- A general register: V0 to V9, VA to VF (R101). -/
def listReg (x : Reg) : String := "V" ++ hexDigit x

/-- An 8-bit immediate in hex with prefix 0x (D23). -/
def listByte (kk : Byte) : String := "0x" ++ hexDigit (kk.extractLsb' 4 4) ++ hexDigit (kk.extractLsb' 0 4)

/-- A 12-bit immediate in hex with prefix 0x (D23). -/
def listAddr (nnn : Addr) : String :=
  "0x" ++ hexDigit (nnn.extractLsb' 8 4) ++ hexDigit (nnn.extractLsb' 4 4) ++ hexDigit (nnn.extractLsb' 0 4)

/-- A 16-bit word in hex with prefix 0x, the operand of `DW` (R102). -/
def listWord (op : Word) : String :=
  "0x" ++ hexDigit (op.extractLsb' 12 4) ++ hexDigit (op.extractLsb' 8 4) ++ hexDigit (op.extractLsb' 4 4)
    ++ hexDigit (op.extractLsb' 0 4)

/-- The spelling of an instruction: mnemonic, then the operands, the destination first (R101). The word 0x0000 is written
NOP, another unrecognised word as the data directive that places it (R102). -/
def listing : Instr → String
  | .cls => "CLS"
  | .ret => "RET"
  | .jp nnn => "JP " ++ listAddr nnn
  | .call nnn => "CALL " ++ listAddr nnn
  | .seByte x kk => "SE " ++ listReg x ++ ", " ++ listByte kk
  | .sneByte x kk => "SNE " ++ listReg x ++ ", " ++ listByte kk
  | .seReg x y => "SE " ++ listReg x ++ ", " ++ listReg y
  | .ldByte x kk => "LD " ++ listReg x ++ ", " ++ listByte kk
  | .addByte x kk => "ADD " ++ listReg x ++ ", " ++ listByte kk
  | .ldReg x y => "LD " ++ listReg x ++ ", " ++ listReg y
  | .orReg x y => "OR " ++ listReg x ++ ", " ++ listReg y
  | .andReg x y => "AND " ++ listReg x ++ ", " ++ listReg y
  | .xorReg x y => "XOR " ++ listReg x ++ ", " ++ listReg y
  | .ldI nnn => "LD I, " ++ listAddr nnn
  | .ldFromDt x => "LD " ++ listReg x ++ ", DT"
  | .ldToSt x => "LD ST, " ++ listReg x
  | .addI x => "ADD I, " ++ listReg x
  | .storeRegs x => "LD [I], " ++ listReg x
  | .loadRegs x => "LD " ++ listReg x ++ ", [I]"
  | .unrecognised op => if op = 0 then "NOP" else "DW " ++ listWord op

end Sys2Proof.Machine
end

