-- ==== Sys2Proof/Tests/Slice0.lean ====
section
/-! SUPPORT. Tests with expected results from spec/95_test_vectors.md (the vector's id stands with each), the refusals of
the well-formedness check, and a witness for every obligation that has hypotheses. -/

open Sys2Proof Sys2Proof.Machine

namespace Sys2Proof.Tests

/-! ## Helpers -/

/-- What `f` reads from a next state. -/
def look {α : Type} (f : State → α) : Result → Option α
  | .next s => some (f s)
  | .fault _ => none
  | .refused _ => none

/-- Reset state with `PC = 0x0200`, changed by `f`, about to run the instruction word `w`. -/
def at200 (f : State → State) (w : Nat) : State := (f (State.reset.withPC 0x200)).withFetchWord 16 w

/-- One register set by number. -/
def vset (x : Reg) (b : Byte) : State → State := State.setReg x b

/-! ## Well-formedness refuses a recognised word in the default row, one per major opcode that has instructions -/

theorem test_wellFormed_refuses_major0 : (Instr.unrecognised 0x00E0).wellFormed = false := by decide
theorem test_wellFormed_refuses_ret : (Instr.unrecognised 0x00EE).wellFormed = false := by decide
theorem test_wellFormed_refuses_whole_majors :
    [0x1000#16, 0x2FFF, 0x3A42, 0x4A42, 0x6C7F, 0x7305, 0xA2F0].all (fun w => !(Instr.unrecognised w).wellFormed) =
      true := by decide
theorem test_wellFormed_refuses_major5 : (Instr.unrecognised 0x5FF0).wellFormed = false := by decide
theorem test_wellFormed_refuses_major8 :
    [0x8AB0#16, 0x8011, 0x8122, 0x8FF3].all (fun w => !(Instr.unrecognised w).wellFormed) = true := by decide
theorem test_wellFormed_refuses_majorF :
    [0xFF07#16, 0xFA18, 0xF31E, 0xF255, 0xFF65].all (fun w => !(Instr.unrecognised w).wellFormed) = true := by decide
theorem test_wellFormed_accepts_noops :
    [0x0000#16, 0x0123, 0x5121, 0x8124, 0x9120, 0xB300, 0xC0FF, 0xD015, 0xE09E, 0xF00A, 0xF015, 0xFFFF].all
      (fun w => (Instr.unrecognised w).wellFormed) = true := by decide

/-! ## Decoding: each constructor from its word written out in bits (E1 to E19) -/

theorem test_decode_cls : decode 0b0000000011100000 = .cls := by decide
theorem test_decode_ret : decode 0b0000000011101110 = .ret := by decide
theorem test_decode_jp : decode 0b0001000100110101 = .jp 0x135 := by decide
theorem test_decode_call : decode 0b0010000100110101 = .call 0x135 := by decide
theorem test_decode_seByte : decode 0b0011101001000010 = .seByte 10 0x42 := by decide
theorem test_decode_sneByte : decode 0b0100101001000010 = .sneByte 10 0x42 := by decide
theorem test_decode_seReg : decode 0b0101000100100000 = .seReg 1 2 := by decide
theorem test_decode_ldByte : decode 0b0110110001111111 = .ldByte 12 0x7F := by decide
theorem test_decode_addByte : decode 0b0111001100000101 = .addByte 3 0x05 := by decide
theorem test_decode_ldReg : decode 0b1000101010110000 = .ldReg 10 11 := by decide
theorem test_decode_orReg : decode 0b1000000000010001 = .orReg 0 1 := by decide
theorem test_decode_andReg : decode 0b1000000100100010 = .andReg 1 2 := by decide
theorem test_decode_xorReg : decode 0b1000001000000011 = .xorReg 2 0 := by decide
theorem test_decode_ldI : decode 0b1010001011110000 = .ldI 0x2F0 := by decide
theorem test_decode_ldFromDt : decode 0b1111010100000111 = .ldFromDt 5 := by decide
theorem test_decode_ldToSt : decode 0b1111101000011000 = .ldToSt 10 := by decide
theorem test_decode_addI : decode 0b1111001100011110 = .addI 3 := by decide
theorem test_decode_storeRegs : decode 0b1111001001010101 = .storeRegs 2 := by decide
theorem test_decode_loadRegs : decode 0b1111001001100101 = .loadRegs 2 := by decide

/-- The decoder checks of spec/95_test_vectors.md part 2: words that must be the no-op. -/
theorem test_decode_noops :
    [0x0000#16, 0x00E1, 0x00EF, 0x0123, 0x00FF, 0x5121, 0x512F, 0x8124, 0x812E, 0x812F, 0x9120, 0xB300, 0xC0FF, 0xD015,
      0xE09E, 0xE0A1, 0xF000, 0xF00A, 0xF015, 0xF029, 0xF033, 0xF056, 0xF066, 0xFFFF].all
      (fun w => decode w == .unrecognised w) = true := by decide

/-- One byte is no instruction, and what is left over stays. -/
theorem test_decodeBytes_short : decodeBytes [0x12] = .error .tooFewBytes := rfl
theorem test_decodeBytes_rest : decodeBytes [0x12, 0x34, 0x56] = .ok (.jp 0x234, [0x56]) := rfl

/-- S3, S4: the table word is laid out high byte first. -/
theorem test_decodeTableWord : decodeTableWord 16 0x1135 = some (.jp 0x135) := by decide

/-! ## The step and the default no-op -/

/-- T5: the last fetchable address. -/
theorem test_step_last_address :
    look State.pc (step ((State.reset.withPC 0xFFE).withFetchWord 16 0x0000)) = some 0x1000 := by decide

/-- T6: a fetch at 0x0FFF faults with PC, FADDR 0x0FFF, FOPC 0 and cause 6. -/
theorem test_step_fetch_fault :
    look (fun s => (s.pc, s.faddr, s.fopc, s.fcause.code, s.mode))
      (step ((State.reset.withPC 0xFFF).withMode .running)) = some (0xFFF, 0xFFF, 0, 6, .faulted) := by decide

/-- T10: STOPPED takes no step. -/
theorem test_step_stopped : look State.pc (step (((at200 id 0x6007)).withMode .stopped)) = some 0x200 := by decide

/-- T79: 8xy4 is a no-op. -/
theorem test_noop_8xy4 :
    look (fun s => (s.pc, s.reg 0, s.reg 15)) (step (at200 (vset 0 0xFF ∘ vset 1 1) 0x8014)) =
      some (0x202, 0xFF, 0) := by decide

/-! ## CLS, RET, JP, CALL -/

/-- R140 from a display that is not clear, which no run reaches. -/
theorem test_cls : look State.disp (step (at200 (State.withDisp [(5, 1)]) 0x00E0)) = some [] := by decide

/-- T22: RET with SP = 16 pops STACK[15]. -/
theorem test_ret_full :
    look (fun s => (s.pc, s.sp, s.stack[15]))
      (step (at200 (State.withSP 16 ∘ State.withStack ((Vector.replicate 16 0).set 15 0xABC)) 0x00EE)) =
      some (0xABC, 15, 0xABC) := by decide

/-- T21: RET on an empty stack. -/
theorem test_ret_empty :
    look (fun s => (s.pc, s.faddr, s.fopc, s.fcause, s.sp)) (step (at200 id 0x00EE)) =
      some (0x202, 0x200, 0x00EE, .stackUnderflow, 0) := by decide

/-- T24: JP 0xFFF completes. -/
theorem test_jp : look (fun s => (s.pc, s.mode)) (step (at200 id 0x1FFF)) = some (0xFFF, .running) := by decide

/-- T28: the 16th nested call succeeds. -/
theorem test_call_last :
    look (fun s => (s.stack[15], s.sp, s.pc)) (step (at200 (State.withSP 15) 0x2300)) =
      some (0x202, 16, 0x300) := by decide

/-- T29: the 17th faults. -/
theorem test_call_full :
    look (fun s => (s.pc, s.faddr, s.fopc, s.fcause, s.sp)) (step (at200 (State.withSP 16) 0x2300)) =
      some (0x202, 0x200, 0x2300, .stackOverflow, 16) := by decide

/-! ## Skips -/

/-- S6. -/
theorem test_seByte_taken : look State.pc (step (at200 (vset 10 0x42) 0x3A42)) = some 0x204 := by decide
theorem test_seByte_not : look State.pc (step (at200 (vset 10 0x41) 0x3A42)) = some 0x202 := by decide
theorem test_sneByte_not : look State.pc (step (at200 (vset 10 0x42) 0x4A42)) = some 0x202 := by decide
theorem test_sneByte_taken : look State.pc (step (at200 (vset 10 0x41) 0x4A42)) = some 0x204 := by decide
/-- T45, T46 at 0x200. -/
theorem test_seReg_taken : look State.pc (step (at200 (vset 1 7 ∘ vset 2 7) 0x5120)) = some 0x204 := by decide
theorem test_seReg_not : look State.pc (step (at200 (vset 1 7 ∘ vset 2 8) 0x5120)) = some 0x202 := by decide

/-! ## Load, add, logic -/

/-- T61. -/
theorem test_ldByte : look (State.reg · 15) (step (at200 (vset 15 0x11) 0x6F00)) = some 0 := by decide
/-- T62, T68. -/
theorem test_addByte_wraps :
    look (fun s => (s.reg 3, s.reg 15)) (step (at200 (vset 3 0xFE) 0x7305)) = some (0x03, 0) := by decide
theorem test_addByte_vf : look (State.reg · 15) (step (at200 id 0x7FFF)) = some 0xFF := by decide
/-- T69. -/
theorem test_ldReg :
    look (fun s => (s.reg 10, s.reg 11)) (step (at200 (vset 11 0x33) 0x8AB0)) = some (0x33, 0x33) := by decide
/-- T71 to T73, T77. -/
theorem test_orReg :
    look (fun s => (s.reg 0, s.reg 1, s.reg 15)) (step (at200 (vset 0 0xAA ∘ vset 1 0x55 ∘ vset 15 1) 0x8011)) =
      some (0xFF, 0x55, 1) := by decide
theorem test_andReg :
    look (fun s => (s.reg 1, s.reg 15)) (step (at200 (vset 1 0x55 ∘ vset 2 0x0F ∘ vset 15 1) 0x8122)) =
      some (0x05, 1) := by decide
theorem test_xorReg :
    look (fun s => (s.reg 2, s.reg 15)) (step (at200 (vset 2 0x0F ∘ vset 0 0xFF ∘ vset 15 1) 0x8203)) =
      some (0xF0, 1) := by decide
theorem test_xorReg_self : look (State.reg · 15) (step (at200 (vset 15 0x5A) 0x8FF3)) = some 0 := by decide

/-! ## Index register and timers -/

/-- T80. -/
theorem test_ldI : look State.i (step (at200 (State.withI 0xFFFF) 0xA2F0)) = some 0x02F0 := by decide
/-- T83, T84. -/
theorem test_addI_leaves_memory :
    look State.i (step (at200 (State.withI 0x0FFF ∘ vset 2 1) 0xF21E)) = some 0x1000 := by decide
theorem test_addI_wraps :
    look (fun s => (s.i, s.reg 15)) (step (at200 (State.withI 0xFFFF ∘ vset 2 2) 0xF21E)) = some (1, 0) := by decide
/-- T90. -/
theorem test_ldFromDt :
    look (fun s => (s.reg 5, s.dt)) (step (at200 (State.withDT 0x2A) 0xF507)) = some (0x2A, 0x2A) := by decide
/-- T93. -/
theorem test_ldToSt : look State.st (step (at200 (State.withST 0x30) 0xF018)) = some 0 := by decide

/-! ## Transfers -/

/-- T102 and T103: the highest legal base and one above. -/
theorem test_storeRegs_top :
    look (fun s => (s.mem.read 0xFF0, s.mem.read 0xFFF, s.mode))
      (step (at200 (State.withI 0xFF0 ∘ vset 0 0x10 ∘ vset 15 0x1F) 0xFF55)) = some (0x10, 0x1F, .running) := by decide
theorem test_storeRegs_fault :
    look (fun s => (s.mem.read 0xFFF, s.fcause, s.faddr, s.fopc, s.pc))
      (step (at200 (State.withI 0xFF1 ∘ vset 14 0x77) 0xFF55)) =
      some (0, .memWriteBounds, 0x200, 0xFF55, 0x202) := by decide
/-- T108: V3 is not loaded; T110: nothing is loaded. -/
theorem test_loadRegs :
    look (fun s => (s.reg 0, s.reg 1, s.reg 2, s.reg 3, s.i))
      (step (at200 (State.withMem [(0x300, 0xAA), (0x301, 0x55), (0x302, 0x0F)] ∘ State.withI 0x300 ∘ vset 3 0xEE)
        0xF265)) = some (0xAA, 0x55, 0x0F, 0xEE, 0x300) := by decide
theorem test_loadRegs_fault :
    look (fun s => (s.reg 0, s.fcause, s.fopc))
      (step (at200 (State.withMem [(0xFFF, 0x99)] ∘ State.withI 0xFFF) 0xF165)) =
      some (0, .memReadBounds, 0xF165) := by decide

/-! ## Timer engine and host port -/

/-- T120, T122. -/
theorem test_tick_running :
    look (fun s => (s.dt, s.st))
      (step ((((State.reset.withDT 3).withST 1).withTrun true).withAgenda [.tick])) = some (2, 0) := by decide
theorem test_tick_stopped :
    look (fun s => (s.dt, s.st)) (step (((State.reset.withDT 3).withST 1).withAgenda [.tick])) = some (3, 1) := by decide

/-- T140, T142. -/
theorem test_readBytes_clips :
    look State.reply
      (step ((State.reset.withMem [(0xFFE, 0xA1), (0xFFF, 0xB2)]).withAgenda [.port (.readBytes 0xFFE 4)])) =
      some (.bytes [0xA1, 0xB2]) := by decide
theorem test_readBytes_past_end :
    look State.reply (step (State.reset.withAgenda [.port (.readBytes 0xFFFF 0xFFFF)])) = some (.bytes []) := by decide

/-- T145. -/
theorem test_writeBytes_clips :
    look State.mem (step (State.reset.withAgenda [.port (.writeBytes 0xFFF [0x11, 0x22])])) =
      some [(0xFFF, 0x11)] := by decide

/-- T148. -/
theorem test_readRegister :
    look State.reply (step ((State.reset.setReg 3 0x44).withAgenda [.port (.readRegister 3)])) =
      some (.byte 0x44) := by decide
theorem test_readRegister_16 :
    look State.reply (step (State.reset.withAgenda [.port (.readRegister 16)])) = some .noValue := by decide

/-- T152. -/
theorem test_writeSP_16 : look State.sp (step (State.reset.withAgenda [.port (.writeSP 16)])) = some 16 := by decide
theorem test_writeSP_17 :
    look State.sp (step ((State.reset.withSP 16).withAgenda [.port (.writeSP 17)])) = some 16 := by decide

/-- T27 with `stepOnce()`, and T6 with it. -/
theorem test_stepOnce :
    look (fun s => (s.pc, s.mode, s.reply))
      (step (((at200 id 0x2300).withMode .stopped).withAgenda [.port .stepOnce])) =
      some (0x300, .stopped, .stepCompleted) := by decide
theorem test_stepOnce_fault :
    look (fun s => (s.mode, s.reply)) (step ((State.reset.withPC 0xFFF).withAgenda [.port .stepOnce])) =
      some (.faulted, .stepFaulted .fetchBounds 0xFFF 0) := by decide

/-! ## Spelling (E6, E16, E18) -/

theorem test_listing_sne : listing (decode 0x4A42) = "SNE VA, 0x42" := by decide
theorem test_listing_st : listing (decode 0xFA18) = "LD ST, VA" := by decide
theorem test_listing_store : listing (decode 0xF255) = "LD [I], V2" := by decide

/-! ## Witnesses: for each obligation with hypotheses, states and operands that meet them -/

/-- A RUNNING reset state at `pc`, nothing due first. -/
def running (pc : Word) : State := (State.reset.withPC pc).withMode .running

/-- A FAULTED state with the invariant: T6's. -/
def faultedAtFetch : State := fetchFault (running 0xFFF)

theorem witness_StepKeepsInvariant :
    (running 0x200).Inv ∧ step (running 0x200) = .next (running 0x202) := ⟨by decide, rfl⟩
theorem witness_InvariantStatesAlwaysStep : faultedAtFetch.Inv ∧ ((running 0).withSP 16).Inv := by decide
theorem witness_StepRunsDecodedInstruction_stopped :
    let s := (at200 id 0x6C7F).withMode .stopped
    s.pc.toNat ≤ 0xFFE ∧
      decodeBytes [s.mem.read s.pc.toNat, s.mem.read (s.pc.toNat + 1)] = .ok (.ldByte 12 0x7F, []) := ⟨by decide, rfl⟩
theorem witness_StepRunsDecodedInstruction_empty :
    (running 0xFFE).mode = .running ∧ (running 0xFFE).pc.toNat ≤ 0xFFE ∧
      decodeBytes [(running 0xFFE).mem.read 0xFFE, (running 0xFFE).mem.read 0xFFF] = .ok (.unrecognised 0, []) ∧
      (running 0xFFE).agenda = [] := ⟨rfl, by decide, rfl, rfl⟩
theorem witness_StepRunsDecodedInstruction_engine :
    let s := (at200 id 0x6C7F).withAgenda [.engine, .tick]
    s.mode = .running ∧ s.pc.toNat ≤ 0xFFE ∧
      decodeBytes [s.mem.read s.pc.toNat, s.mem.read (s.pc.toNat + 1)] = .ok (.ldByte 12 0x7F, []) ∧
      s.agenda = .engine :: [.tick] := ⟨rfl, by decide, rfl, rfl⟩
theorem witness_FetchOutsideMemoryFaults :
    let idle := State.reset.withPC 0xFFF
    let named := (running 0xFFFF).withAgenda [.engine]
    (0xFFF ≤ idle.pc.toNat ∧ idle.mode = .stopped) ∧
      (0xFFF ≤ (running 0xFFF).pc.toNat ∧ (running 0xFFF).mode = .running ∧ (running 0xFFF).agenda = []) ∧
      0xFFF ≤ named.pc.toNat ∧ named.mode = .running ∧ named.agenda = .engine :: [] := by decide
theorem witness_EngineIdlesUnlessRunning :
    (State.reset.mode ≠ .running ∧ State.reset.agenda = []) ∧
      (faultedAtFetch.withAgenda [.engine]).mode ≠ .running ∧
      (faultedAtFetch.withAgenda [.engine]).agenda = .engine :: [] := by decide
theorem witness_StepOnceTakesOneStepWhenStopped_completes :
    let s := State.reset.withAgenda [.port .stepOnce]
    s.agenda = .port .stepOnce :: [] ∧ s.mode = .stopped ∧ s.pc.toNat ≤ 0xFFE ∧
      exec (decode (wordOfBytes (s.mem.read s.pc.toNat) (s.mem.read (s.pc.toNat + 1))))
        ((s.withAgenda []).withPC (s.pc + 2)) = .next (State.reset.withPC 2) := ⟨rfl, rfl, by decide, rfl⟩
theorem witness_StepOnceTakesOneStepWhenStopped_fetch :
    let s := (State.reset.withPC 0xFFF).withAgenda [.port .stepOnce]
    s.agenda = .port .stepOnce :: [] ∧ s.mode = .stopped ∧ 0xFFF ≤ s.pc.toNat := by decide
theorem witness_StepOnceTakesOneStepWhenStopped_ignored :
    let s := (running 0).withAgenda [.port .stepOnce]
    s.agenda = .port .stepOnce :: [] ∧ s.mode ≠ .stopped := by decide
theorem witness_FaultedIsLeftOnlyByReset :
    let s := faultedAtFetch.withAgenda [.port .run]
    s.mode = .faulted ∧ step s = .next faultedAtFetch ∧ s.agenda.head? ≠ some (.port .reset) :=
  ⟨rfl, rfl, by decide⟩
theorem witness_FaultedIsLeftOnlyByReset_tick :
    let s := (faultedAtFetch.withTrun true).withAgenda [.tick]
    s.mode = .faulted ∧ step s = .next (faultedAtFetch.withTrun true) ∧ s.agenda.head? ≠ some (.port .reset) :=
  ⟨rfl, rfl, by decide⟩
theorem witness_DecodeOfEncodeIsInstruction :
    (Instr.unrecognised 0xF015).wellFormed = true ∧ (Instr.loadRegs 15).wellFormed = true := by decide
theorem witness_NoWordMatchesTwoRows :
    rows[(⟨12, by decide⟩ : Fin rows.length)].hits 0x1135 = true ∧
      rows[(⟨0, by decide⟩ : Fin rows.length)].hits 0x00E0 = true := by decide
theorem witness_DecodesAs :
    0x00E0#16 &&& 0xFFFF = 0x00E0 ∧ 0x00EE#16 &&& 0xFFFF = 0x00EE ∧ 0x1FFF#16 &&& 0xF000 = 0x1000 ∧
      0x2FFF#16 &&& 0xF000 = 0x2000 ∧ 0x3FFF#16 &&& 0xF000 = 0x3000 ∧ 0x4000#16 &&& 0xF000 = 0x4000 ∧
      0x5FF0#16 &&& 0xF00F = 0x5000 ∧ 0x6FFF#16 &&& 0xF000 = 0x6000 ∧ 0x7FFF#16 &&& 0xF000 = 0x7000 ∧
      0x8FF0#16 &&& 0xF00F = 0x8000 ∧ 0x8FF1#16 &&& 0xF00F = 0x8001 ∧ 0x8FF2#16 &&& 0xF00F = 0x8002 ∧
      0x8FF3#16 &&& 0xF00F = 0x8003 ∧ 0xAFFF#16 &&& 0xF000 = 0xA000 ∧ 0xFF07#16 &&& 0xF0FF = 0xF007 ∧
      0xFF18#16 &&& 0xF0FF = 0xF018 ∧ 0xFF1E#16 &&& 0xF0FF = 0xF01E ∧ 0xFF55#16 &&& 0xF0FF = 0xF055 ∧
      0xFF65#16 &&& 0xF0FF = 0xF065 := by decide
theorem witness_RetPopsReturnAddress :
    (State.reset.withSP 1).sp.toNat = (0 : Fin 16).val + 1 ∧ (State.reset.withSP 16).sp.toNat = (15 : Fin 16).val + 1 ∧
      State.reset.sp = 0 := by decide
theorem witness_RetStopsWhereSlotIsMissing :
    17 ≤ (State.reset.withSP 17).sp.toNat ∧ 17 ≤ (State.reset.withSP 31).sp.toNat := by decide
theorem witness_CallPushesReturnAddress :
    State.reset.sp.toNat = (0 : Fin 16).val ∧ (State.reset.withSP 15).sp.toNat = (15 : Fin 16).val ∧
      16 ≤ (State.reset.withSP 16).sp.toNat ∧ 16 ≤ (State.reset.withSP 31).sp.toNat := by decide
theorem witness_CallThenRetRestores :
    State.reset.sp.toNat < 16 ∧ (State.reset.withSP 15).sp.toNat < 16 := by decide
theorem witness_SkipsCompareAndAddTwo :
    State.reset.reg 15 = 0 ∧ State.reset.reg 15 ≠ 0xFF := by decide
theorem witness_PcAdditionsNeverWrap :
    (running 0xFFE).pc.toNat ≤ 0xFFE ∧ (Instr.seByte 0 0).wellFormed = true ∧ writtenBy (.seByte 0 0) = [.pc] ∧
      (∀ nnn : Addr, Instr.seByte 0 0 ≠ .jp nnn) ∧
      exec (.seByte 0 0) (running 0xFFE).advance = .next (running 0x1002) :=
  ⟨by decide, rfl, rfl, fun _ h => (nomatch h), rfl⟩
theorem witness_VfChangesOnlyAsNamedDestination :
    exec (.ldByte 15 1) State.reset = .next (State.reset.setReg 15 1) ∧
      (State.reset.setReg 15 1).reg 15 ≠ State.reset.reg 15 := ⟨rfl, by decide⟩
theorem witness_StoreRegsWritesBlock :
    (State.reset.withI 0xFF0).mem.wf = true ∧ (State.reset.withI 0xFF0).i.toNat + (15 : Reg).toNat ≤ 0xFFF ∧
      0xFFF < (State.reset.withI 0xFF1).i.toNat + (15 : Reg).toNat ∧
      0xFFF < (State.reset.withI 0xFFFF).i.toNat + (0 : Reg).toNat := by decide
theorem witness_LoadRegsReadsBlock :
    (State.reset.withI 0xFFF).i.toNat + (0 : Reg).toNat ≤ 0xFFF ∧
      0xFFF < (State.reset.withI 0xFFF).i.toNat + (1 : Reg).toNat := by decide
theorem witness_StoreThenLoadRestoresRegisters :
    (State.reset.withI 0xFF0).mem.wf = true ∧ (State.reset.withI 0xFF0).i.toNat + (15 : Reg).toNat ≤ 0xFFF := by decide
theorem witness_FetchSeesStoredBytes :
    (State.reset.withI 0xFF0).mem.wf = true ∧ (State.reset.withI 0xFF0).i.toNat + (15 : Reg).toNat ≤ 0xFFF ∧
      (14 : Reg).toNat + 1 ≤ (15 : Reg).toNat := by decide
theorem witness_UnrecognisedWordOnlyAdvancesPc :
    AboutToStep (at200 id 0xD015) ∧ fetchWord (at200 id 0xD015) = some 0xD015 ∧ recognised 0xD015 = false :=
  ⟨⟨rfl, rfl⟩, by decide, by decide⟩
theorem witness_SelfJumpIsFixedPoint : AboutToStep (at200 id 0x1200) ∧ atSelfJump (at200 id 0x1200) = true :=
  ⟨⟨rfl, rfl⟩, by decide⟩
theorem witness_ExecutionOffTheEndFaults_last :
    AboutToStep (running 0xFFE) ∧ (running 0xFFE).pc = 0xFFE ∧ step (running 0xFFE) = .next (running 0x1000) ∧
      (running 0x1000).mode = .running ∧ 0xFFF ≤ (running 0x1000).pc.toNat ∧
      Part.pc ∉ writtenBy (decode (wordOfBytes ((running 0xFFE).mem.read 0xFFE) ((running 0xFFE).mem.read 0xFFF))) :=
  ⟨⟨rfl, rfl⟩, rfl, rfl, rfl, by decide, by decide⟩
theorem witness_ExecutionOffTheEndFaults_jump :
    AboutToStep (at200 id 0x1FFF) ∧ look State.mode (step (at200 id 0x1FFF)) = some .running ∧
      look State.pc (step (at200 id 0x1FFF)) = some 0xFFF := ⟨⟨rfl, rfl⟩, by decide, by decide⟩
theorem witness_EmptyMemoryRunsOffTheEnd : AboutToStep (running 0) ∧ (running 0).mem = [] ∧ (running 0).pc = 0 :=
  ⟨⟨rfl, rfl⟩, rfl, rfl⟩
theorem witness_ExecWritesOnlyWhatTheAccessTableLists :
    exec .ret State.reset = .next (executeFault .stackUnderflow .ret State.reset) ∧
      exec (.storeRegs 15) (State.reset.withI 0xFF0) = .next (storeBlock 15 (State.reset.withI 0xFF0)) := ⟨rfl, rfl⟩
theorem witness_ExecFaultsExactlyWhenRaised :
    raises .ret .stackUnderflow State.reset ∧ raises (.call 0) .stackOverflow (State.reset.withSP 16) ∧
      raises (.storeRegs 1) .memWriteBounds (State.reset.withI 0xFFF) ∧
      raises (.loadRegs 1) .memReadBounds (State.reset.withI 0xFFF) ∧
      exec .ret State.reset = .next (executeFault .stackUnderflow .ret State.reset) ∧
      State.reset.mode ≠ .faulted ∧ (executeFault .stackUnderflow .ret State.reset).mode = .faulted :=
  ⟨rfl, show 16 ≤ (State.reset.withSP 16).sp.toNat by decide,
    show 0xFFF < (State.reset.withI 0xFFF).i.toNat + (1 : Reg).toNat by decide,
    show 0xFFF < (State.reset.withI 0xFFF).i.toNat + (1 : Reg).toNat by decide, rfl, by decide, rfl⟩
theorem witness_StepFaultIsPrecise_fetch :
    AboutToStep (running 0xFFF) ∧ step (running 0xFFF) = .next faultedAtFetch ∧ faultedAtFetch.mode = .faulted :=
  ⟨⟨rfl, rfl⟩, rfl, rfl⟩
theorem witness_StepFaultIsPrecise_execute :
    AboutToStep (at200 id 0x00EE) ∧
      step (at200 id 0x00EE) = .next (executeFault .stackUnderflow .ret (at200 id 0x00EE).advance) ∧
      (executeFault .stackUnderflow .ret (at200 id 0x00EE).advance).mode = .faulted :=
  ⟨⟨rfl, rfl⟩, rfl, rfl⟩
theorem witness_TicksAndPortOperationsNeverFault :
    (State.reset.withAgenda [.tick]).agenda = .tick :: [] ∧ Action.tick ≠ .engine ∧
      Action.tick ≠ .port .stepOnce ∧ Action.port (.writePC 0xFFFF) ≠ .engine ∧
      Action.port (.writePC 0xFFFF) ≠ .port .stepOnce := by decide
theorem witness_DelayTimerChangesOnlyByTickHostOrReset :
    step (((State.reset.withDT 1).withTrun true).withAgenda [.tick]) = .next (State.reset.withTrun true) ∧
      (State.reset.withTrun true).dt ≠ (((State.reset.withDT 1).withTrun true).withAgenda [.tick]).dt :=
  ⟨rfl, by decide⟩
theorem witness_DelayTimerChangesOnlyByTickHostOrReset_port :
    step (State.reset.withAgenda [.port (.writeDT 9)]) = .next (State.reset.withDT 9) ∧
      (State.reset.withDT 9).dt ≠ (State.reset.withAgenda [.port (.writeDT 9)]).dt ∧
      step ((State.reset.withDT 9).withAgenda [.port .reset]) = .next State.reset ∧
      State.reset.dt ≠ ((State.reset.withDT 9).withAgenda [.port .reset]).dt := ⟨rfl, by decide, rfl, by decide⟩
theorem witness_TickLowersBothTimers :
    ((State.reset.withTrun true).withAgenda [.tick, .engine]).agenda = .tick :: [.engine] ∧
      ((State.reset.withTrun true).withAgenda [.tick, .engine]).trun = true ∧ State.reset.trun = false := by decide
theorem witness_ManyTicksSaturateOrDoNothing :
    (State.reset.withAgenda [.tick, .tick, .engine]).agenda = List.replicate 2 .tick ++ [.engine] ∧
      (State.reset.withTrun true).trun = true ∧ State.reset.trun = false := by decide
theorem witness_TimerAccessIsWholeInEitherOrder : (State.reset.withTrun true).trun = true := by decide
theorem witness_WriteBytesClipsAtEndOfMemory :
    State.reset.mem.wf = true ∧ 0 < [0x11#8, 0x22].length ∧ (0xFFF : Word).toNat + 0 < 4096 := by decide
theorem witness_ReadBytesAfterWriteBytesReturnsThem :
    let s := State.reset.withAgenda
      [.port (.writeBytes 0xFFC [0xDE, 0xAD, 0xBE, 0xEF]), .port (.readBytes 0xFFC (BitVec.ofNat 16 4))]
    s.mem.wf = true ∧ (0xFFC : Word).toNat + [0xDE#8, 0xAD, 0xBE, 0xEF].length ≤ 4096 ∧
      s.agenda = .port (.writeBytes 0xFFC [0xDE, 0xAD, 0xBE, 0xEF]) ::
        .port (.readBytes 0xFFC (BitVec.ofNat 16 [0xDE#8, 0xAD, 0xBE, 0xEF].length)) :: [] := by decide
theorem witness_SingleRegisterAccessRejectsIndexPast15 :
    (15 : Byte).toNat = (15 : Reg).toNat ∧ 16 ≤ (16 : Byte).toNat ∧ 16 ≤ (255 : Byte).toNat := by decide
theorem witness_WriteSpRefusesAbove16 : (16 : Nat) ≤ 16 ∧ (16 : Nat) < 17 := by decide
theorem witness_ReadDisplayAnswersZeroCells : State.reset.Inv := by decide
theorem witness_EngineControlMovesBetweenStoppedAndRunning :
    State.reset.mode = .stopped ∧ (running 0).mode ≠ .stopped ∧ (running 0).mode = .running ∧
      faultedAtFetch.mode ≠ .stopped ∧ faultedAtFetch.mode ≠ .running := by decide
theorem witness_BootLoadsImageAndRuns :
    ((running 7).withAgenda (bootActions 0xFFE 0x200 [1, 2, 3] true)).agenda =
      bootActions 0xFFE 0x200 [1, 2, 3] true := by decide

end Sys2Proof.Tests
end

/-! PROOFS. The host port's writes and the boot sequence of spec/70_reset_and_hazards.md R303: what `writeBytes` leaves in
memory, what one port transaction at the head of the agenda does to a run, and the state the boot sequence ends in. -/

namespace Sys2Proof.Machine

/-! ## Frames of TRUN and MODE -/

theorem withTrun_frame (b : Bool) (s : State) : UnchangedBut [.trun] s (s.withTrun b) := by
  intro p hp
  cases p <;> simp_all [Part.Same, State.reg]

theorem withMode_frame (m : Mode) (s : State) : UnchangedBut [.mode] s (s.withMode m) := by
  intro p hp
  cases p <;> simp_all [Part.Same, State.reg]

/-! ## `writeBytes` (R221) -/

/-- At an address past memory nothing is left after the clipping, so one block write says both branches. -/
theorem portWriteBytes_eq (addr : Word) (bytes : List Byte) (s : State) :
    portWriteBytes addr bytes s = s.withMem (s.mem.writeBlock addr.toNat (bytes.take (4096 - addr.toNat))) := by
  rw [portWriteBytes, memSize_eq]
  split
  · next past =>
    rw [Nat.sub_eq_zero_of_le past, List.take_zero]
    rfl
  · rfl

theorem read_portWriteBytes_inside {s : State} (wf : s.mem.wf = true) {addr : Word} {bytes : List Byte} {k : Nat}
    (hk : k < bytes.length) (fits : addr.toNat + k < 4096) :
    (portWriteBytes addr bytes s).mem.read (addr.toNat + k) = bytes[k] := by
  have len : (bytes.take (4096 - addr.toNat)).length = min (4096 - addr.toNat) bytes.length := List.length_take
  rw [portWriteBytes_eq, State.withMem_mem, Memory.read_writeBlock_inside wf (by omega) (by omega), List.getElem_take]

theorem read_portWriteBytes_outside (s : State) {addr : Word} {bytes : List Byte} {a : Nat}
    (h : a < addr.toNat ∨ addr.toNat + bytes.length ≤ a) :
    (portWriteBytes addr bytes s).mem.read a = s.mem.read a := by
  have len : (bytes.take (4096 - addr.toNat)).length = min (4096 - addr.toNat) bytes.length := List.length_take
  rw [portWriteBytes_eq, State.withMem_mem, Memory.read_writeBlock_outside _ (by omega)]

theorem portWriteBytes_frame (addr : Word) (bytes : List Byte) (s : State) :
    UnchangedBut [.mem] s (portWriteBytes addr bytes s) := by
  rw [portWriteBytes_eq]
  exact withMem_frame _ s

/-! ## Port operations at the head of the agenda -/

theorem step_port {s : State} {op : PortOp} {rest : List Action} (h : s.agenda = .port op :: rest)
    (ne : op ≠ .stepOnce) : step s = .next (portTransaction op (s.withAgenda rest)) := by
  rw [step_agenda h, perform_port ne]

theorem run_port {s : State} {op : PortOp} {rest : List Action} (h : s.agenda = .port op :: rest)
    (ne : op ≠ .stepOnce) (n : Nat) : core.run (n + 1) s = core.run n (portTransaction op (s.withAgenda rest)) :=
  run_succ (step_port h ne) n

/-! ## The boot sequence (R303) -/

/-- The state after `reset()`, `writeBytes(ORIGIN, image)` and `writePC(ENTRY)`. -/
def loaded (origin entry : Word) (image : List Byte) : State := (portWriteBytes origin image State.reset).withPC entry

/-- The state the whole boot sequence ends in: loaded, the timer as wanted, the engine RUNNING. -/
def booted (origin entry : Word) (image : List Byte) (timer : Bool) : State :=
  ((loaded origin entry image).withTrun timer).withMode .running

/-- The first three boot operations, from any state and with any actions still to come. -/
theorem run_load {s : State} {origin entry : Word} {image : List Byte} {rest : List Action}
    (h : s.agenda = .port .reset :: .port (.writeBytes origin image) :: .port (.writePC entry) :: rest) :
    core.run 3 s = .next ((loaded origin entry image).withAgenda rest) := by
  rw [run_port h nofun]
  rw [run_port (op := .writeBytes origin image) rfl nofun]
  simp only [portTransaction, portEffect, portWriteBytes_eq]
  rw [run_port (op := .writePC entry) rfl nofun, run_zero, loaded, portWriteBytes_eq]
  rfl

/-- The boot operations after the load: the timer's start if it is wanted, then `run()`. -/
def launchActions (timer : Bool) : List Action := (if timer then [.port .start] else []) ++ [.port .run]

theorem bootActions_eq (origin entry : Word) (image : List Byte) (timer : Bool) :
    bootActions origin entry image timer =
      .port .reset :: .port (.writeBytes origin image) :: .port (.writePC entry) :: launchActions timer := by
  simp [bootActions, launchActions]

theorem run_launchActions (origin entry : Word) (image : List Byte) (timer : Bool) :
    core.run (launchActions timer).length ((loaded origin entry image).withAgenda (launchActions timer)) =
      .next (booted origin entry image timer) := by
  rw [booted, loaded, portWriteBytes_eq]
  cases timer
  case false => exact run_port (op := .run) rfl nofun 0
  case true => exact (run_port (op := .start) rfl nofun 1).trans (run_port (op := .run) rfl nofun 0)

theorem run_bootActions {s : State} {origin entry : Word} {image : List Byte} {timer : Bool}
    (h : s.agenda = bootActions origin entry image timer) :
    core.run (bootActions origin entry image timer).length s = .next (booted origin entry image timer) := by
  rw [bootActions_eq] at h
  calc core.run (bootActions origin entry image timer).length s
      = core.run (3 + (launchActions timer).length) s := by
        rw [bootActions_eq]
        exact congrArg (core.run · s) (Nat.add_comm _ 3)
    _ = core.run (launchActions timer).length ((loaded origin entry image).withAgenda (launchActions timer)) :=
        run_add (run_load h) _
    _ = .next (booted origin entry image timer) := run_launchActions ..

/-! What the state booted holds. -/

theorem booted_agenda (origin entry : Word) (image : List Byte) (timer : Bool) :
    (booted origin entry image timer).agenda = [] := by
  rw [booted, loaded, portWriteBytes_eq]
  rfl

theorem booted_frame (origin entry : Word) (image : List Byte) (timer : Bool) :
    UnchangedBut [.mem, .pc, .trun, .mode] State.reset (booted origin entry image timer) :=
  (((portWriteBytes_frame origin image State.reset).mono (by decide)).trans
    ((withPC_frame entry _).mono (by decide))).trans
    (((withTrun_frame timer _).mono (by decide)).trans ((withMode_frame .running _).mono (by decide)))

/-- Settles O55: the run ends in `booted`, whose memory is the clipped image over the zero memory of reset. -/
theorem bootLoadsImageAndRuns : Obligations.BootLoadsImageAndRuns := by
  intro s origin entry image timer h
  refine ⟨booted origin entry image timer, run_bootActions h, booted_agenda .., ?_, ?_, rfl, rfl, rfl,
    (booted_frame origin entry image timer).mono (by decide)⟩
  · intro k hk fits
    exact read_portWriteBytes_inside (s := State.reset) rfl hk fits
  · intro a outside
    exact read_portWriteBytes_outside State.reset outside

end Sys2Proof.Machine

/-! PROOFS. The rules of spec/10_state.md. What an execute stage, an instruction step and a step of the machine can do is
said once as an inversion; the access summary (R40), VF (R22), the PC additions (R26), DT (R39 (e)) and the invariant
(R39 (a) to (d)) follow from it. -/

namespace Sys2Proof.Machine

/-! ## What an execute stage can do (R124, R260) -/

/-- The state an instruction leaves when it completes, as `exec_cases` says. A RET whose stack slot is missing completes
from no state (log entry 5); `s` stands there. -/
def completed : Instr → State → State
  | .cls, s => clearDisplay s
  | .ret, s => (popReturn s).getD s
  | .jp nnn, s => s.withPC (zextAddr nnn)
  | .call nnn, s => (pushReturn s).withPC (zextAddr nnn)
  | .seByte x kk, s => skipIf (s.reg x == kk) s
  | .sneByte x kk, s => skipIf (s.reg x != kk) s
  | .seReg x y, s => skipIf (s.reg x == s.reg y) s
  | .ldByte x kk, s => s.setReg x kk
  | .addByte x kk, s => s.setReg x (sum8 (s.reg x) kk)
  | .ldReg x y, s => s.setReg x (s.reg y)
  | .orReg x y, s => s.setReg x (s.reg x ||| s.reg y)
  | .andReg x y, s => s.setReg x (s.reg x &&& s.reg y)
  | .xorReg x y, s => s.setReg x (s.reg x ^^^ s.reg y)
  | .ldI nnn, s => s.withI (zextAddr nnn)
  | .ldFromDt x, s => s.setReg x s.dt
  | .ldToSt x, s => s.withST (s.reg x)
  | .addI x, s => s.withI (sum16 s.i (s.reg x))
  | .storeRegs x, s => storeBlock x s
  | .loadRegs x, s => loadBlock x s
  | .unrecognised _, s => s

theorem zextAddr_le (nnn : Addr) : (zextAddr nnn).toNat ≤ 0xFFF := by
  have := nnn.isLt
  simp only [zextAddr, BitVec.toNat_setWidth]
  omega

/-- An instruction that meets a row of R260's table takes that row's fault. -/
theorem exec_of_raises {i : Instr} {c : Cause} {s : State} (h : raises i c s) :
    exec i s = .next (executeFault c i s) := by
  unfold raises at h
  split at h
  · exact if_pos h
  · exact if_pos h
  · exact if_pos ((blockOutside_iff _ s).mpr h)
  · exact if_pos ((blockOutside_iff _ s).mpr h)
  · exact h.elim

/-- An instruction that meets no row of R260's table leaves its completed state, when it answers a next state at all. -/
theorem exec_of_not_raises {i : Instr} {s t : State} (h : exec i s = .next t) (unraised : ∀ c, ¬ raises i c s) :
    t = completed i s := by
  cases i with
  | ret =>
    have nonempty : s.sp ≠ 0 := unraised .stackUnderflow
    simp only [exec, execRet, if_neg nonempty] at h
    cases e : popReturn s with
    | some u =>
      rw [e] at h
      rw [completed, e]
      exact (Host.Outcome.next.inj h).symm
    | none =>
      rw [e] at h
      cases h
  | call nnn =>
    have room : ¬ 16 ≤ s.sp.toNat := unraised .stackOverflow
    have inMemory : ¬ 0xFFF < (zextAddr nnn).toNat := Nat.not_lt.mpr (zextAddr_le nnn)
    simp only [exec, execCall, if_neg room, if_neg inMemory] at h
    exact (Host.Outcome.next.inj h).symm
  | storeRegs x =>
    have fits : ¬ blockOutside x s = true := fun o => unraised .memWriteBounds ((blockOutside_iff x s).mp o)
    simp only [exec, execStoreRegs, if_neg fits] at h
    exact (Host.Outcome.next.inj h).symm
  | loadRegs x =>
    have fits : ¬ blockOutside x s = true := fun o => unraised .memReadBounds ((blockOutside_iff x s).mp o)
    simp only [exec, execLoadRegs, if_neg fits] at h
    exact (Host.Outcome.next.inj h).symm
  | cls | jp | seByte | sneByte | seReg | ldByte | addByte | ldReg | orReg | andReg | xorReg | ldI | ldFromDt | ldToSt
  | addI | unrecognised => exact (Host.Outcome.next.inj h).symm

/-- The one inversion of an execute stage: it completes, or it takes a fault that R260 gives the instruction. -/
theorem exec_cases {i : Instr} {s t : State} (h : exec i s = .next t) :
    ((∀ c, ¬ raises i c s) ∧ t = completed i s) ∨ ∃ c, raises i c s ∧ t = executeFault c i s := by
  by_cases raised : ∃ c, raises i c s
  · obtain ⟨c, hc⟩ := raised
    rw [exec_of_raises hc] at h
    exact .inr ⟨c, hc, (Host.Outcome.next.inj h).symm⟩
  · have unraised : ∀ c, ¬ raises i c s := not_exists.mp raised
    exact .inl ⟨unraised, exec_of_not_raises h unraised⟩

/-! ## What completing an instruction changes (R40) -/

theorem withSP_frame (p : BitVec 5) (s : State) : UnchangedBut [.sp] s (s.withSP p) := by
  intro q hq
  cases q <;> simp_all [Part.Same, State.reg]

/-- A pop can write SP and PC only, whether or not the slot exists. -/
theorem popReturn_getD_eq (s : State) : ∃ p w, (popReturn s).getD s = (s.withSP p).withPC w := by
  unfold popReturn
  split
  · exact ⟨_, _, rfl⟩
  · exact ⟨s.sp, s.pc, rfl⟩

theorem popReturn_frame (s : State) : UnchangedBut [.pc, .sp] s ((popReturn s).getD s) := by
  obtain ⟨p, w, popped⟩ := popReturn_getD_eq s
  rw [popped]
  exact ((withSP_frame p s).mono (by decide)).trans ((withPC_frame w _).mono (by decide))

theorem completed_frame (i : Instr) (s : State) : UnchangedBut (writtenBy i) s (completed i s) := by
  cases i with
  | cls => exact clearDisplay_frame s
  | ret => exact popReturn_frame s
  | jp => exact withPC_frame _ s
  | call =>
    have pushed : UnchangedBut [.pc, .sp, .stack] s (pushReturn s) := (pushReturn_frame s).mono (by decide)
    exact pushed.trans ((withPC_frame _ _).mono (by simp))
  | seByte | sneByte | seReg => exact skipIf_frame _ s
  | ldByte | addByte | ldReg | orReg | andReg | xorReg | ldFromDt => exact setReg_frame _ _ s
  | ldI | addI => exact withI_frame _ s
  | ldToSt => exact withST_frame _ s
  | storeRegs x => exact storeBlock_frame x s
  | loadRegs x => exact loadBlock_frame x s
  | unrecognised => exact UnchangedBut.refl _ s

theorem completed_keepsTheRest (i : Instr) (s : State) : KeepsTheRest i s (completed i s) := by
  cases i with
  | call =>
    intro k other
    exact (pushReturn_entry k.isLt).trans (if_neg other.symm)
  | ldByte | addByte | ldReg | orReg | andReg | xorReg | ldFromDt => exact fun r other => reg_setReg_other other _ s
  | storeRegs => exact fun a outside => read_storeBlock_outside outside
  | loadRegs x => exact fun r above => (reg_loadBlock x r s).trans (if_neg (Nat.not_le.mpr above))
  | cls | ret | jp | seByte | sneByte | seReg | ldI | addI | ldToSt | unrecognised => trivial

theorem executeFault_takesFault (c : Cause) (i : Instr) (s : State) :
    TakesFault c (encode i) s (executeFault c i s) := by
  obtain ⟨mode, fcause, faddr, fopc⟩ := executeFault_report c i s
  refine ⟨mode, fcause, fun addr0 h => ?_, fopc, executeFault_frame c i s⟩
  rw [faddr, h, BitVec.add_sub_cancel]

/-- Settles O38, by the two ways an execute stage can end. -/
theorem execWritesOnlyWhatTheAccessTableLists : Obligations.ExecWritesOnlyWhatTheAccessTableLists := by
  intro i s t h
  obtain ⟨_, rfl⟩ | ⟨c, raised, rfl⟩ := exec_cases h
  · exact .inl ⟨completed_frame i s, completed_keepsTheRest i s⟩
  · exact .inr ⟨c, raised, executeFault_takesFault c i s⟩

/-- VF stays as it was where the instruction does not name it: no register is written, or another one is. -/
theorem completed_vf {i : Instr} (h : namesVF i = false) (s : State) : (completed i s).reg 15 = s.reg 15 := by
  cases i with
  | ldByte x | addByte x | ldReg x | orReg x | andReg x | xorReg x | ldFromDt x =>
    have other : 15 ≠ x := (ne_of_beq_false h).symm
    exact reg_setReg_other other _ s
  | loadRegs x =>
    have other : x ≠ 15 := ne_of_beq_false h
    have above : x.toNat < (15 : Reg).toNat := by bv_omega
    exact completed_keepsTheRest (.loadRegs x) s 15 above
  | cls | ret | jp | call | seByte | sneByte | seReg | ldI | addI | ldToSt | storeRegs | unrecognised =>
    exact completed_frame _ s .v (by simp [writtenBy]) 15

/-- Settles O27: neither a completion that does not name VF nor a fault changes it. -/
theorem vfChangesOnlyAsNamedDestination : Obligations.VfChangesOnlyAsNamedDestination := by
  intro i s t h changed
  by_contra unnamed
  refine changed ?_
  obtain ⟨_, rfl⟩ | ⟨c, _, rfl⟩ := exec_cases h
  · exact completed_vf (Bool.eq_false_of_not_eq_true unnamed) s
  · exact executeFault_frame c i s .v (by decide) 15

/-! ## The PC additions (R26) -/

theorem advance_pc_toNat {s : State} (h : s.pc.toNat ≤ 0xFFE) : s.advance.pc.toNat = s.pc.toNat + 2 := by
  simp only [State.advance, State.withPC_pc, BitVec.toNat_add, BitVec.reduceToNat]
  omega

/-- Only a skip writes nothing but PC without being a jump, and it leaves PC or advances it. -/
theorem completed_pc_of_skip {i : Instr} (onlyPC : writtenBy i = [.pc]) (noJump : ∀ nnn : Addr, i ≠ .jp nnn)
    (s : State) : (completed i s).pc = s.pc ∨ (completed i s).pc = s.advance.pc := by
  cases i with
  | seByte | sneByte | seReg =>
    rw [completed, skipIf]
    split
    · exact .inr rfl
    · exact .inl rfl
  | jp nnn => exact absurd rfl (noJump nnn)
  | cls | ret | call | ldByte | addByte | ldReg | orReg | andReg | xorReg | ldI | ldFromDt | ldToSt | addI | storeRegs
  | loadRegs | unrecognised => simp [writtenBy] at onlyPC

/-- Settles O23: the fetch adds 2 to at most 0xFFE, a taken skip 2 more, and a fault leaves PC. -/
theorem pcAdditionsNeverWrap : Obligations.PcAdditionsNeverWrap := by
  intro s t i fetchable _ onlyPC noJump h
  have fetched : s.advance.pc.toNat = s.pc.toNat + 2 := advance_pc_toNat fetchable
  have skipped : s.advance.advance.pc.toNat = s.pc.toNat + 4 := by
    simp only [State.advance, State.withPC_pc, BitVec.toNat_add, BitVec.reduceToNat]
    omega
  have pc : t.pc = s.advance.pc ∨ t.pc = s.advance.advance.pc := by
    obtain ⟨_, rfl⟩ | ⟨c, _, rfl⟩ := exec_cases h
    · exact completed_pc_of_skip onlyPC noJump s.advance
    · exact .inl (executeFault_frame c i s.advance .pc (by decide))
  rcases pc with pc | pc <;> rw [pc] <;> omega

/-! ## What a step can do (R72, R120, R121, R239) -/

/-- Every step performs one action with the rest of the agenda still to come: the engine's turn, a tick, `stepOnce` or
another port transaction. -/
theorem step_cases {s t : State} (h : step s = .next t) :
    (s.agenda.head? ∈ [none, some .engine] ∧ engineTurn (s.withAgenda s.agenda.tail) = .next t) ∨
    (s.agenda.head? = some .tick ∧ t = tick (s.withAgenda s.agenda.tail)) ∨
    (s.agenda.head? = some (.port .stepOnce) ∧ stepOnce (s.withAgenda s.agenda.tail) = .next t) ∨
    ∃ op, op ≠ .stepOnce ∧ s.agenda.head? = some (.port op) ∧
      t = portTransaction op (s.withAgenda s.agenda.tail) := by
  cases e : s.agenda with
  | nil =>
    have same : s.withAgenda [] = s := by rw [← e]; rfl
    rw [step_empty e] at h
    exact .inl ⟨by simp, by rwa [List.tail_nil, same]⟩
  | cons a rest =>
    rw [step_agenda e] at h
    simpa using perform_cases h

/-- A step that fetches executes the fetched word; one that cannot takes the fetch fault. -/
theorem instructionStep_cases {s t : State} (h : instructionStep s = .next t) :
    (0xFFF ≤ s.pc.toNat ∧ t = fetchFault s) ∨
    (s.pc.toNat ≤ 0xFFE ∧ ∃ op, fetchWord s = some op ∧ exec (decode op) s.advance = .next t) := by
  by_cases fetchable : s.pc.toNat ≤ 0xFFE
  · rw [instructionStep_fetched (fetchWord_inside fetchable)] at h
    exact .inr ⟨fetchable, _, fetchWord_inside fetchable, h⟩
  · have outside : 0xFFF ≤ s.pc.toNat := by omega
    rw [instructionStep_unfetched (fetchWord_outside outside)] at h
    exact .inl ⟨outside, (Host.Outcome.next.inj h).symm⟩

theorem engineTurn_cases {s t : State} (h : engineTurn s = .next t) :
    (s.mode ≠ .running ∧ t = s) ∨ (s.mode = .running ∧ instructionStep s = .next t) := by
  by_cases running : s.mode = .running
  · exact .inr ⟨running, engineTurn_running running ▸ h⟩
  · rw [engineTurn_idle running] at h
    exact .inl ⟨running, (Host.Outcome.next.inj h).symm⟩

theorem stepOnce_cases {s t : State} (h : stepOnce s = .next t) :
    (s.mode ≠ .stopped ∧ t = s.withReply .noValue) ∨
    (s.mode = .stopped ∧ ∃ u, instructionStep s = .next u ∧ t = u.withReply (stepOutcome u)) := by
  by_cases stopped : s.mode = .stopped
  · rw [stepOnce_stopped stopped] at h
    exact .inr ⟨stopped, mapNext_eq_next h⟩
  · rw [stepOnce_ignored stopped] at h
    exact .inl ⟨stopped, (Host.Outcome.next.inj h).symm⟩

/-! ## Frames of the agenda, the reply and the port operations that have a condition (R226, R230, R237, R238) -/

theorem portWriteRegister_frame (index value : Byte) (s : State) :
    UnchangedBut [.v] s (portWriteRegister index value s) := by
  unfold portWriteRegister
  split
  · exact withV_frame _ s
  · exact UnchangedBut.refl _ s

theorem own_frame (as : List Action) (r : Reply) (s : State) :
    UnchangedBut [.own] s ((s.withAgenda as).withReply r) := by
  intro p hp
  cases p <;> simp_all [Part.Same, State.reg]

theorem portWriteSP_frame (value : Nat) (s : State) : UnchangedBut [.sp] s (portWriteSP value s) := by
  unfold portWriteSP
  split
  · exact withSP_frame _ s
  · exact UnchangedBut.refl _ s

theorem portRun_frame (s : State) : UnchangedBut [.mode] s (portRun s) := by
  unfold portRun
  split
  · exact withMode_frame _ s
  · exact UnchangedBut.refl _ s

theorem portStopEngine_frame (s : State) : UnchangedBut [.mode] s (portStopEngine s) := by
  unfold portStopEngine
  split
  · exact withMode_frame _ s
  · exact UnchangedBut.refl _ s

/-! ## The delay timer (R39 (e)) -/

theorem exec_dt {i : Instr} {s t : State} (h : exec i s = .next t) : t.dt = s.dt := by
  obtain ⟨_, rfl⟩ | ⟨c, _, rfl⟩ := exec_cases h
  · have unlisted : Part.dt ∉ writtenBy i := by cases i <;> simp [writtenBy]
    exact completed_frame i s .dt unlisted
  · rfl

theorem instructionStep_dt {s t : State} (h : instructionStep s = .next t) : t.dt = s.dt := by
  obtain ⟨_, rfl⟩ | ⟨_, op, _, executed⟩ := instructionStep_cases h
  · rfl
  · exact (exec_dt executed : t.dt = s.advance.dt)

theorem engineTurn_dt {s t : State} (h : engineTurn s = .next t) : t.dt = s.dt := by
  obtain ⟨_, rfl⟩ | ⟨_, stepped⟩ := engineTurn_cases h
  · rfl
  · exact instructionStep_dt stepped

theorem stepOnce_dt {s t : State} (h : stepOnce s = .next t) : t.dt = s.dt := by
  obtain ⟨_, rfl⟩ | ⟨_, u, stepped, rfl⟩ := stepOnce_cases h
  · rfl
  · exact (instructionStep_dt stepped : u.dt = s.dt)

/-- A tick that changes DT finds the timer started and DT above zero. -/
theorem tick_dt_of_changed {s : State} (changed : (tick s).dt ≠ s.dt) :
    s.trun = true ∧ (tick s).dt.toNat + 1 = s.dt.toNat := by
  cases started : s.trun with
  | false => exact absurd (congrArg State.dt (tick_stopped started)) changed
  | true =>
    have lowered : (tick s).dt = lower s.dt := by rw [tick_running started]; rfl
    have value : (tick s).dt.toNat = s.dt.toNat - 1 := by rw [lowered, lower_toNat]
    have other : (tick s).dt.toNat ≠ s.dt.toNat := fun same => changed (BitVec.eq_of_toNat_eq same)
    exact ⟨rfl, by omega⟩

/-- The port operations that change DT are `writeDT` and `reset()`. -/
theorem portEffect_dt_of_changed {op : PortOp} {s : State} (changed : (portEffect op s).dt ≠ s.dt) :
    (∃ b, op = .writeDT b ∧ (portEffect op s).dt = b) ∨ (op = .reset ∧ (portEffect op s).dt = 0) := by
  cases op with
  | writeDT b => exact .inl ⟨b, rfl, rfl⟩
  | reset => exact .inr ⟨rfl, rfl⟩
  | writeBytes addr bytes => exact absurd (portWriteBytes_frame addr bytes s .dt (by decide)) changed
  | writeRegister index value => exact absurd (portWriteRegister_frame index value s .dt (by decide)) changed
  | writeSP value => exact absurd (portWriteSP_frame value s .dt (by decide)) changed
  | run => exact absurd (portRun_frame s .dt (by decide)) changed
  | stopEngine => exact absurd (portStopEngine_frame s .dt (by decide)) changed
  | start | stop | stepOnce | writeRegisters | writePC | writeI | writeStackFrame | writeST | readTRUN | readStatus
  | readBytes | readRegister | readRegisters | readPC | readSP | readI | readStackFrame | readDT | readST
  | readDisplay => exact absurd rfl changed

/-- Settles O42, by the kind of action the step performs. -/
theorem delayTimerChangesOnlyByTickHostOrReset : Obligations.DelayTimerChangesOnlyByTickHostOrReset := by
  intro s t h changed
  obtain ⟨_, turn⟩ | ⟨head, rfl⟩ | ⟨_, turn⟩ | ⟨op, _, head, rfl⟩ := step_cases h
  · exact absurd (engineTurn_dt turn) changed
  · exact .inl ⟨head, tick_dt_of_changed changed⟩
  · exact absurd (stepOnce_dt turn) changed
  · obtain ⟨b, rfl, value⟩ | ⟨rfl, value⟩ := portEffect_dt_of_changed changed
    · exact .inr (.inl ⟨b, head, value⟩)
    · exact .inr (.inr ⟨head, value⟩)

/-! ## Execute stages keep the invariant (R39) -/

theorem reportOk_congr {s t : State} (mode : t.mode = s.mode)
    (report : t.fcause = s.fcause ∧ t.faddr = s.faddr ∧ t.fopc = s.fopc) : reportOk t = reportOk s := by
  obtain ⟨fcause, faddr, fopc⟩ := report
  simp only [reportOk, mode, fcause, faddr, fopc]

theorem completed_sp_le {i : Instr} {s : State} (bound : s.sp.toNat ≤ 16) (unraised : ∀ c, ¬ raises i c s) :
    (completed i s).sp.toNat ≤ 16 := by
  cases i with
  | ret =>
    have nonempty : s.sp ≠ 0 := unraised .stackUnderflow
    obtain ⟨_, popped⟩ := popReturn_eq nonempty bound
    rw [completed, popped]
    show (s.sp - 1).toNat ≤ 16
    bv_omega
  | call nnn =>
    have room : ¬ 16 ≤ s.sp.toNat := unraised .stackOverflow
    show (s.sp + 1).toNat ≤ 16
    bv_omega
  | cls | jp | seByte | sneByte | seReg | ldByte | addByte | ldReg | orReg | andReg | xorReg | ldI | ldFromDt | ldToSt
  | addI | storeRegs | loadRegs | unrecognised =>
    refine (congrArg BitVec.toNat (completed_frame _ s .sp ?_)).trans_le bound
    simp [writtenBy]

theorem skipIf_eq_withPC (c : Bool) (s : State) : skipIf c s = s.withPC (skipIf c s).pc := by
  cases c <;> rfl

theorem completed_mem_wf_and_disp_empty {s : State} (wf : s.mem.wf = true) (empty : s.disp = []) (i : Instr) :
    (completed i s).mem.wf = true ∧ (completed i s).disp = [] := by
  cases i with
  | cls => exact ⟨wf, rfl⟩
  | storeRegs x => exact ⟨storeBlock_wf wf x, empty⟩
  | ret =>
    obtain ⟨p, w, popped⟩ := popReturn_getD_eq s
    rw [completed, popped]
    exact ⟨wf, empty⟩
  | seByte | sneByte | seReg =>
    rw [completed, skipIf_eq_withPC]
    exact ⟨wf, empty⟩
  | loadRegs x => simp only [completed, loadBlock, State.withV_mem, State.withV_disp, wf, empty, and_self]
  | jp | call | ldByte | addByte | ldReg | orReg | andReg | xorReg | ldI | ldFromDt | ldToSt | addI
  | unrecognised => exact ⟨wf, empty⟩

theorem completed_reportOk (i : Instr) (s : State) : reportOk (completed i s) = reportOk s :=
  reportOk_congr (completed_frame i s .mode (by cases i <;> simp [writtenBy]))
    (completed_frame i s .report (by cases i <;> simp [writtenBy]))

/-- Each row of R260's table puts into the report what R261's table has for its cause. -/
theorem executeFault_reportOk {i : Instr} {c : Cause} {s : State} (raised : raises i c s)
    (fetchable : s.addr0.toNat ≤ 0xFFE) : reportOk (executeFault c i s) = true := by
  unfold raises at raised
  split at raised
  case h_5 => exact raised.elim
  all_goals simp [reportOk, executeFault, takeFault, encode, fetchable]

theorem fetchFault_reportOk {s : State} (outside : 0xFFF ≤ s.pc.toNat) : reportOk (fetchFault s) = true := by
  show (true && decide (0xFFF ≤ s.pc.toNat) && true) = true
  rw [decide_eq_true outside]
  rfl

/-- An execute stage of a word that could be fetched keeps the invariant. -/
theorem exec_keeps_inv {i : Instr} {s t : State} (inv : s.Inv) (fetchable : s.addr0.toNat ≤ 0xFFE)
    (h : exec i s = .next t) : t.Inv := by
  obtain ⟨sp, mem, disp, report⟩ := inv
  obtain ⟨unraised, rfl⟩ | ⟨c, raised, rfl⟩ := exec_cases h
  · obtain ⟨wf, empty⟩ := completed_mem_wf_and_disp_empty mem disp i
    exact ⟨completed_sp_le sp unraised, wf, empty, (completed_reportOk i s).trans report⟩
  · exact ⟨sp, mem, disp, executeFault_reportOk raised fetchable⟩

/-! ## Every action keeps the invariant -/

theorem instructionStep_keeps_inv {s t : State} (inv : s.Inv) (h : instructionStep s = .next t) : t.Inv := by
  obtain ⟨outside, rfl⟩ | ⟨fetchable, op, _, executed⟩ := instructionStep_cases h
  · obtain ⟨sp, mem, disp, _⟩ := inv
    exact ⟨sp, mem, disp, fetchFault_reportOk outside⟩
  · have advanced : s.advance.Inv := inv
    exact exec_keeps_inv advanced (by rwa [addr0_advance]) executed

theorem engineTurn_keeps_inv {s t : State} (inv : s.Inv) (h : engineTurn s = .next t) : t.Inv := by
  obtain ⟨_, rfl⟩ | ⟨_, stepped⟩ := engineTurn_cases h
  · exact inv
  · exact instructionStep_keeps_inv inv stepped

theorem stepOnce_keeps_inv {s t : State} (inv : s.Inv) (h : stepOnce s = .next t) : t.Inv := by
  obtain ⟨_, rfl⟩ | ⟨_, u, stepped, rfl⟩ := stepOnce_cases h
  · exact inv
  · have kept : u.Inv := instructionStep_keeps_inv inv stepped
    exact kept

theorem tick_keeps_inv {s : State} (inv : s.Inv) : (tick s).Inv := by
  cases started : s.trun with
  | false => rwa [tick_stopped started]
  | true =>
    rw [tick_running started]
    exact inv

/-- Without a fault the report is empty, so it fits every mode but FAULTED. -/
theorem reportOk_withMode {s : State} {m : Mode} (ok : reportOk s = true) (before : s.mode ≠ .faulted)
    (after : m ≠ .faulted) : reportOk (s.withMode m) = true := by
  cases e : s.fcause <;> simp_all [reportOk]

theorem withMode_keeps_inv {s : State} {m : Mode} (inv : s.Inv) (before : s.mode ≠ .faulted) (after : m ≠ .faulted) :
    (s.withMode m).Inv := by
  obtain ⟨sp, mem, disp, report⟩ := inv
  exact ⟨sp, mem, disp, reportOk_withMode report before after⟩

theorem portRun_keeps_inv {s : State} (inv : s.Inv) : (portRun s).Inv := by
  unfold portRun
  split
  · next stopped => exact withMode_keeps_inv inv (by simp [stopped]) (by decide)
  · exact inv

theorem portStopEngine_keeps_inv {s : State} (inv : s.Inv) : (portStopEngine s).Inv := by
  unfold portStopEngine
  split
  · next running => exact withMode_keeps_inv inv (by simp [running]) (by decide)
  · exact inv

theorem portWriteSP_keeps_inv {s : State} (inv : s.Inv) (value : Nat) : (portWriteSP value s).Inv := by
  unfold portWriteSP
  split
  · next legal =>
    obtain ⟨_, rest⟩ := inv
    have bound : (BitVec.ofNat 5 value).toNat ≤ 16 := (Nat.mod_le value (2 ^ 5)).trans legal
    exact ⟨bound, rest⟩
  · exact inv

theorem portWriteBytes_keeps_inv {s : State} (inv : s.Inv) (addr : Word) (bytes : List Byte) :
    (portWriteBytes addr bytes s).Inv := by
  obtain ⟨sp, mem, rest⟩ := inv
  rw [portWriteBytes_eq]
  exact ⟨sp, Memory.writeBlock_wf mem _ _, rest⟩

theorem portWriteRegister_keeps_inv {s : State} (inv : s.Inv) (index value : Byte) :
    (portWriteRegister index value s).Inv := by
  unfold portWriteRegister
  split <;> exact inv

/-- Settles O2, each conjunct by evaluation. -/
theorem resetSatisfiesInvariant : Obligations.ResetSatisfiesInvariant :=
  ⟨Nat.zero_le _, rfl, rfl, rfl⟩

theorem portEffect_keeps_inv {s : State} (inv : s.Inv) (op : PortOp) : (portEffect op s).Inv := by
  cases op with
  | reset => exact resetSatisfiesInvariant
  | run => exact portRun_keeps_inv inv
  | stopEngine => exact portStopEngine_keeps_inv inv
  | writeSP value => exact portWriteSP_keeps_inv inv value
  | writeBytes addr bytes => exact portWriteBytes_keeps_inv inv addr bytes
  | writeRegister index value => exact portWriteRegister_keeps_inv inv index value
  | start | stop | stepOnce | writeRegisters | writePC | writeI | writeStackFrame | writeDT | writeST | readTRUN
  | readStatus | readBytes | readRegister | readRegisters | readPC | readSP | readI | readStackFrame | readDT | readST
  | readDisplay => exact inv

/-- Settles O3, by the kind of action the step performs. -/
theorem stepKeepsInvariant : Obligations.StepKeepsInvariant := by
  intro s t inv h
  have scheduled : (s.withAgenda s.agenda.tail).Inv := inv
  obtain ⟨_, turn⟩ | ⟨_, rfl⟩ | ⟨_, turn⟩ | ⟨op, _, _, rfl⟩ := step_cases h
  · exact engineTurn_keeps_inv scheduled turn
  · exact tick_keeps_inv scheduled
  · exact stepOnce_keeps_inv scheduled turn
  · exact portEffect_keeps_inv scheduled op

/-! ## Reset, the idle engine, the missing slot, the display -/

/-- Settles O1, each element by evaluation of the reset state. -/
theorem resetLeavesEverythingZero : Obligations.ResetLeavesEverythingZero := by
  have registers : ∀ r : Reg, State.reset.reg r = 0 := fun r => Vector.getElem_replicate r.isLt
  have entries : ∀ k : Fin 16, State.reset.stack[k] = 0 := fun k => Vector.getElem_replicate k.isLt
  exact ⟨Memory.read_nil, registers, rfl, rfl, rfl, entries, rfl, rfl, Memory.read_nil, rfl, rfl, rfl, rfl, rfl, rfl,
    rfl⟩

/-- Settles O7: with the agenda empty or naming the engine, the turn is the idle engine's. -/
theorem engineIdlesUnlessRunning : Obligations.EngineIdlesUnlessRunning := by
  intro s rest idle
  constructor
  · intro empty
    rw [step_empty empty, engineTurn_idle idle]
  · intro named
    rw [step_agenda named]
    exact engineTurn_idle (s := s.withAgenda rest) idle

/-- Settles O18: the stack is not empty and the slot below SP does not exist. -/
theorem retStopsWhereSlotIsMissing : Obligations.RetStopsWhereSlotIsMissing := by
  intro s h
  have nonempty : s.sp ≠ 0 := by bv_omega
  simp only [exec, execRet, if_neg nonempty, popReturn_none h]

/-- Settles O53: the answer is the block read of DISP from cell 0, and the invariant has DISP empty. -/
theorem readDisplayAnswersZeroCells : Obligations.ReadDisplayAnswersZeroCells := by
  intro s
  have cells : ∀ (k : Nat) (h : k < (portReadDisplay s).length), (portReadDisplay s)[k] = Memory.read s.disp k := by
    intro k h
    have cell := Memory.getElem_readBlock s.disp 0 Config.dispCells h
    rwa [Nat.zero_add] at cell
  refine ⟨portReadDisplay s, fun rest => ?_, Memory.length_readBlock .., cells, fun inv k h => ?_⟩
  · exact ⟨_, step_port rfl nofun, rfl, rfl, trivial, own_frame rest _ s⟩
  · obtain ⟨_, _, empty, _⟩ := inv
    rw [cells, empty, Memory.read_nil]

end Sys2Proof.Machine

/-! PROOFS. The rules of spec/20_memory.md: the host's byte transfers, clipped at the end of memory (R63, R220, R221), the
byte order of a fetch (R64), a fetch after a block store (R77), and a timer access on either side of a tick (R74). -/

namespace Sys2Proof.Machine

/-! ## A port operation as the next action (R242) -/

/-- What a port operation does to the block, whatever actions are still to come, it does as the next action. -/
theorem portDoes_of_portEffect {op : PortOp} {s : State} {changed : List Part} {reply : Reply} {effect : State → Prop}
    (ne : op ≠ .stepOnce) (keepsOwn : Part.own ∉ changed)
    (answer : ∀ rest, portAnswer op (s.withAgenda rest) = reply)
    (effected : ∀ rest, effect (portTransaction op (s.withAgenda rest)))
    (frame : ∀ rest, UnchangedBut changed (s.withAgenda rest) (portEffect op (s.withAgenda rest))) :
    PortDoes op s changed reply effect := by
  intro rest
  obtain ⟨agenda, _⟩ := frame rest .own keepsOwn
  refine ⟨portTransaction op (s.withAgenda rest), step_port rfl ne, agenda, answer rest, effected rest, ?_⟩
  have scheduled : UnchangedBut (.own :: changed) s (s.withAgenda rest) := (own_frame rest s.reply s).mono (by simp)
  have performed := (frame rest).mono (List.subset_cons_self .own changed)
  have replied : UnchangedBut (.own :: changed) (portEffect op (s.withAgenda rest))
      (portTransaction op (s.withAgenda rest)) := (own_frame _ _ _).mono (by simp)
  exact (scheduled.trans performed).trans replied

/-! ## `readBytes` and `writeBytes` at the end of memory (R63, R220, R221) -/

/-- Past the end of memory the clipped length is zero, so one block read says both branches. -/
theorem portReadBytes_eq (addr length : Word) (s : State) :
    portReadBytes addr length s =
      s.mem.readBlock addr.toNat (min (addr.toNat + length.toNat) 4096 - addr.toNat) := by
  rw [portReadBytes, memSize_eq]
  split
  · next past =>
    have clipped : min (addr.toNat + length.toNat) 4096 - addr.toNat = 0 := by omega
    rw [clipped, Memory.readBlock]
  · rfl

theorem length_portReadBytes (addr length : Word) (s : State) :
    (portReadBytes addr length s).length = min (addr.toNat + length.toNat) 4096 - addr.toNat := by
  rw [portReadBytes_eq, Memory.length_readBlock]

theorem getElem_portReadBytes {addr length : Word} {s : State} {k : Nat}
    (h : k < (portReadBytes addr length s).length) :
    (portReadBytes addr length s)[k] = s.mem.read (addr.toNat + k) := by
  simp only [portReadBytes_eq, Memory.getElem_readBlock]

theorem read_portWriteBytes_past (s : State) {addr : Word} {bytes : List Byte} {a : Nat} (h : 4096 ≤ a) :
    (portWriteBytes addr bytes s).mem.read a = s.mem.read a := by
  have len : (bytes.take (4096 - addr.toNat)).length = min (4096 - addr.toNat) bytes.length := List.length_take
  rw [portWriteBytes_eq, State.withMem_mem, Memory.read_writeBlock_outside _ (by omega)]

/-- Settles O47: the answer is the block read of the clipped length, and a read has no effect. -/
theorem readBytesClipsAtEndOfMemory : Obligations.ReadBytesClipsAtEndOfMemory := by
  intro s addr length
  refine ⟨portReadBytes addr length s, ?_, length_portReadBytes .., fun k => getElem_portReadBytes⟩
  exact portDoes_of_portEffect nofun (by decide) (fun _ => rfl) (fun _ => trivial) fun _ => UnchangedBut.refl _ _

/-- Settles O48: the block write of the bytes that fit, cell by cell. -/
theorem writeBytesClipsAtEndOfMemory : Obligations.WriteBytesClipsAtEndOfMemory := by
  intro s addr bytes wf
  refine portDoes_of_portEffect nofun (by decide) (fun _ => rfl) (fun rest => ⟨?_, ?_⟩)
    fun _ => portWriteBytes_frame _ _ _
  · intro k hk fits
    exact read_portWriteBytes_inside (s := s.withAgenda rest) wf hk fits
  · rintro a (below | above | past)
    · exact read_portWriteBytes_outside (s.withAgenda rest) (.inl below)
    · exact read_portWriteBytes_outside (s.withAgenda rest) (.inr above)
    · exact read_portWriteBytes_past (s.withAgenda rest) past

/-! ## Byte order and a fetch after a block store (R64, R77) -/

theorem exec_storeRegs_of_fits {x : Reg} {s : State} (fits : s.i.toNat + x.toNat ≤ 0xFFF) :
    exec (.storeRegs x) s = .next (storeBlock x s) :=
  if_neg fun outside => Nat.not_lt.mpr fits ((blockOutside_iff x s).mp outside)

/-- Settles O34: both cells fetched lie inside the block stored. -/
theorem fetchSeesStoredBytes : Obligations.FetchSeesStoredBytes := by
  intro x s r wf fits inside
  have pc : (s.i + r.setWidth 16).toNat = s.i.toNat + r.toNat := by bv_omega
  have high : (storeBlock x s).mem.read (s.i.toNat + r.toNat) = s.reg r := by
    rw [read_storeBlock_inside wf fits (by omega), BitVec.ofNat_toNat, BitVec.setWidth_eq]
  have low : (storeBlock x s).mem.read (s.i.toNat + r.toNat + 1) = s.reg (r + 1) := by
    have following : BitVec.ofNat 4 (r.toNat + 1) = r + 1 := by bv_omega
    rw [Nat.add_assoc, read_storeBlock_inside wf fits inside, following]
  refine ⟨storeBlock x s, exec_storeRegs_of_fits fits, ?_⟩
  have fetchable : ((storeBlock x s).withPC (s.i + r.setWidth 16)).pc.toNat ≤ 0xFFE := by
    rw [State.withPC_pc, pc]
    omega
  rw [fetchWord_inside fetchable, State.withPC_mem, State.withPC_pc, pc, high, low]

/-- A pair of bytes is read high byte first. -/
theorem decodeBytes_pair_eq_ok_iff {hi lo : Byte} {i : Instr} :
    decodeBytes [hi, lo] = .ok (i, []) ↔ decode (wordOfBytes hi lo) = i := by
  simp [decodeBytes]

/-- Settles O11, by evaluating the decoder on each word. -/
theorem writtenOutWordsDecode : Obligations.WrittenOutWordsDecode := by
  simp only [Obligations.WrittenOutWordsDecode, decodeBytes_pair_eq_ok_iff]
  decide

/-! ## A timer access on either side of a tick (R74) -/

theorem tick_dt_toNat {s : State} (started : s.trun = true) : (tick s).dt.toNat = s.dt.toNat - 1 := by
  rw [tick_running started, State.withST_dt, State.withDT_dt, lower_toNat]

theorem tick_st_toNat {s : State} (started : s.trun = true) : (tick s).st.toNat = s.st.toNat - 1 := by
  rw [tick_running started, State.withST_st, lower_toNat]

theorem reg_tick (x : Reg) (s : State) : (tick s).reg x = s.reg x := tick_frame s .v (by decide) x

/-- Settles O46: the two accesses each from before and from after the tick. -/
theorem timerAccessIsWholeInEitherOrder : Obligations.TimerAccessIsWholeInEitherOrder := by
  intro x s started
  refine ⟨s.setReg x s.dt, (tick s).setReg x (tick s).dt, s.withST (s.reg x), (tick s).withST ((tick s).reg x),
    rfl, reg_setReg_same .., rfl, ?_, rfl, reg_tick x s, rfl, ?_⟩
  · rw [reg_setReg_same, tick_dt_toNat started]
  · exact tick_st_toNat (s := s.withST (s.reg x)) started

end Sys2Proof.Machine


/-! PROOFS. The rules of spec/30_encoding.md: the 19 rows are pairwise disjoint (R95), a row that matches puts a word
together again from its fields (R92, R96), and the words some row matches are R97's instruction words. Then the totality
of what follows a decode: an execute stage faults exactly as R260 says, and a state with the invariant always steps. -/

namespace Sys2Proof

/-! ## No word matches two rows (R95) -/

/-- Two rows that match one word agree on the bits both masks fix. -/
theorem Row.patterns_agree {r q : Row} {op : Word} (hr : r.hits op = true) (hq : q.hits op = true) :
    r.pattern &&& q.mask = q.pattern &&& r.mask := by
  rw [Row.hits, beq_iff_eq] at hr hq
  rw [← hr, ← hq, BitVec.and_assoc, BitVec.and_assoc, BitVec.and_comm r.mask]

/-- Any two rows of the map differ in a bit both masks fix. -/
theorem rows_patterns_clash :
    ∀ j k : Fin rows.length, rows[j].pattern &&& rows[k].mask = rows[k].pattern &&& rows[j].mask → j = k := by
  decide

/-- Settles O14: on the bits both masks fix, two rows that match one word agree and two different rows do not. -/
theorem noWordMatchesTwoRows : Obligations.NoWordMatchesTwoRows :=
  ⟨rfl, fun _ j k hj hk => rows_patterns_clash j k (Row.patterns_agree hj hk)⟩

/-! ## What the decoder answers (R94, R98) -/

theorem decode_of_no_hits {op : Word} (h : ∀ r ∈ rows, r.hits op = false) : decode op = .unrecognised op := by
  have none_found : rows.find? (·.hits op) = none := List.find?_eq_none.mpr fun r hr => by simp [h r hr]
  rw [decode, none_found]

/-- The one row that matches gives the meaning: the decoder's order of the rows does not matter. -/
theorem decode_of_hits {r : Row} (hr : r ∈ rows) {op : Word} (h : r.hits op = true) : decode op = r.build op := by
  have matched : (rows.find? (·.hits op)).isSome := List.find?_isSome.mpr ⟨r, hr, h⟩
  obtain ⟨q, found⟩ := Option.isSome_iff_exists.mp matched
  have hits : q.hits op = true := List.find?_some (p := fun r => Row.hits r op) found
  obtain ⟨j, hj, rfl⟩ := List.mem_iff_getElem.mp (List.mem_of_find?_eq_some found)
  obtain ⟨k, hk, rfl⟩ := List.mem_iff_getElem.mp hr
  obtain ⟨_, disjoint⟩ := noWordMatchesTwoRows
  cases disjoint op ⟨j, hj⟩ ⟨k, hk⟩ hits h
  rw [decode, found]

/-- The one inversion of the decoder: some row matches and gives the meaning, or none does. -/
theorem decode_cases (op : Word) :
    (∃ r ∈ rows, r.hits op = true ∧ decode op = r.build op) ∨
    ((∀ r ∈ rows, r.hits op = false) ∧ decode op = .unrecognised op) := by
  by_cases matched : ∃ r ∈ rows, r.hits op = true
  · obtain ⟨r, hr, h⟩ := matched
    exact .inl ⟨r, hr, h, decode_of_hits hr h⟩
  · have unmatched : ∀ r ∈ rows, r.hits op = false := by simpa using matched
    exact .inr ⟨unmatched, decode_of_no_hits unmatched⟩

/-! ## Decoding an encoded instruction (R92, R93) -/

section
open Laws.EncodesItsRow

theorem encodesItsRow : ∀ i : Instr, Statement i
  | .cls => cls
  | .ret => ret
  | .jp nnn => jp nnn
  | .call nnn => call nnn
  | .seByte x kk => seByte x kk
  | .sneByte x kk => sneByte x kk
  | .seReg x y => seReg x y
  | .ldByte x kk => ldByte x kk
  | .addByte x kk => addByte x kk
  | .ldReg x y => ldReg x y
  | .orReg x y => orReg x y
  | .andReg x y => andReg x y
  | .xorReg x y => xorReg x y
  | .ldI nnn => ldI nnn
  | .ldFromDt x => ldFromDt x
  | .ldToSt x => ldToSt x
  | .addI x => addI x
  | .storeRegs x => storeRegs x
  | .loadRegs x => loadRegs x
  | .unrecognised op => unrecognised op

theorem decode_encode_of_row {i : Instr} (h : OfRow i) : decode (encode i) = i := by
  obtain ⟨r, hr, hits, built⟩ := h
  rw [decode_of_hits hr hits, built]

/-- Settles O12: the word matches the instruction's own row, which reads it back, or no row for the default no-op. -/
theorem decodeOfEncodeIsInstruction : Obligations.DecodeOfEncodeIsInstruction := by
  intro i wf
  have own := encodesItsRow i
  cases i with
  | unrecognised op => exact decode_of_no_hits (own wf)
  | cls | ret | jp | call | seByte | sneByte | seReg | ldByte | addByte | ldReg | orReg | andReg | xorReg | ldI
  | ldFromDt | ldToSt | addI | storeRegs | loadRegs => exact decode_encode_of_row own

end

/-! ## A matching row puts the word together again (R92, R96) -/

theorem formatA_fields {op : Word} {major : BitVec 4} (h : op &&& 0xF000#16 = major.setWidth 16 <<< 12) :
    formatA major (fieldNNN op) = op := by
  rw [formatA, ← h]
  ext i hi
  interval_cases i <;> simp [fieldNNN]

theorem formatK_fields {op : Word} {major : BitVec 4} (h : op &&& 0xF000#16 = major.setWidth 16 <<< 12) :
    formatK major (fieldX op) (fieldKK op) = op := by
  rw [formatK, ← h]
  ext i hi
  interval_cases i <;> simp [fieldX, fieldKK]

theorem formatR_fields {op : Word} {major fn : BitVec 4}
    (h : op &&& 0xF00F#16 = major.setWidth 16 <<< 12 ||| fn.setWidth 16) :
    formatR major (fieldX op) (fieldY op) fn = op := by
  have literalsFirst : formatR major (fieldX op) (fieldY op) fn =
      (op &&& 0xF00F#16) ||| (fieldX op).setWidth 16 <<< 8 ||| (fieldY op).setWidth 16 <<< 4 := by
    rw [h, formatR]
    ac_rfl
  rw [literalsFirst]
  ext i hi
  interval_cases i <;> simp [fieldX, fieldY]

theorem formatF_fields {op : Word} {fn : Byte} (h : op &&& 0xF0FF#16 = 0xF000#16 ||| fn.setWidth 16) :
    formatF (fieldX op) fn = op := by
  have literalsFirst : formatF (fieldX op) fn = (op &&& 0xF0FF#16) ||| (fieldX op).setWidth 16 <<< 8 := by
    rw [h, formatF, formatK, BitVec.or_assoc, BitVec.or_assoc, BitVec.or_comm (fn.setWidth 16)]
    rfl
  rw [literalsFirst]
  ext i hi
  interval_cases i <;> simp [fieldX]

/-- What a row reads from a word it matches is well formed and encodes to that word, by the row's format. -/
theorem Row.build_wellFormed_and_encode {r : Row} (hr : r ∈ rows) {op : Word} (h : r.hits op = true) :
    (r.build op).wellFormed = true ∧ encode (r.build op) = op := by
  rw [Row.hits, beq_iff_eq] at h
  simp only [rows, List.mem_append] at hr
  rcases hr with ((hr | hr) | hr) | hr
  · have whole : op &&& 0xFFFF = op := BitVec.and_allOnes
    simp only [rowsExact, List.mem_cons, List.not_mem_nil, or_false] at hr
    rcases hr with rfl | rfl <;> exact ⟨rfl, h.symm.trans whole⟩
  · simp only [rowsFunction, List.mem_cons, List.not_mem_nil, or_false] at hr
    rcases hr with rfl | rfl | rfl | rfl | rfl <;> exact ⟨rfl, formatF_fields h⟩
  · simp only [rowsRegister, List.mem_cons, List.not_mem_nil, or_false] at hr
    rcases hr with rfl | rfl | rfl | rfl | rfl <;> exact ⟨rfl, formatR_fields h⟩
  · simp only [rowsMajor, List.mem_cons, List.not_mem_nil, or_false] at hr
    rcases hr with rfl | rfl | rfl | rfl | rfl | rfl | rfl
    · exact ⟨rfl, formatA_fields h⟩
    · exact ⟨rfl, formatA_fields h⟩
    · exact ⟨rfl, formatK_fields h⟩
    · exact ⟨rfl, formatK_fields h⟩
    · exact ⟨rfl, formatK_fields h⟩
    · exact ⟨rfl, formatK_fields h⟩
    · exact ⟨rfl, formatA_fields h⟩

/-! ## The words of R97 are the words some row matches -/

theorem and_major {op : Word} {major : Nat} (h : (op >>> 12).toNat = major) :
    op &&& 0xF000#16 = BitVec.ofNat 16 major <<< 12 := by
  rw [← h, BitVec.ofNat_toNat, BitVec.setWidth_eq]
  ext i hi
  interval_cases i <;> simp

theorem and_low (op : Word) (n : Nat) :
    op &&& BitVec.ofNat 16 (2 ^ n - 1) = BitVec.ofNat 16 (op.toNat % 2 ^ n) := by
  rw [← Nat.and_two_pow_sub_one_eq_mod, BitVec.ofNat_and, BitVec.ofNat_toNat, BitVec.setWidth_eq]

/-- A mask over the major opcode and the low `n` bits keeps those two numbers of a word. -/
theorem and_major_low {op mask : Word} {major low n : Nat}
    (hmask : mask = 0xF000#16 ||| BitVec.ofNat 16 (2 ^ n - 1)) (hmajor : (op >>> 12).toNat = major)
    (hlow : op.toNat % 2 ^ n = low) : op &&& mask = BitVec.ofNat 16 major <<< 12 ||| BitVec.ofNat 16 low := by
  rw [hmask, BitVec.and_or_distrib_left, and_major hmajor, and_low, hlow]

theorem and_register {op : Word} {major low : Nat} (hmajor : (op >>> 12).toNat = major) (hlow : op.toNat % 16 = low) :
    op &&& 0xF00F#16 = BitVec.ofNat 16 major <<< 12 ||| BitVec.ofNat 16 low :=
  and_major_low (n := 4) (by decide) hmajor hlow

theorem and_function {op : Word} {major low : Nat} (hmajor : (op >>> 12).toNat = major) (hlow : op.toNat % 256 = low) :
    op &&& 0xF0FF#16 = BitVec.ofNat 16 major <<< 12 ||| BitVec.ofNat 16 low :=
  and_major_low (n := 8) (by decide) hmajor hlow

theorem exists_hits {op mask pattern : Word} (listed : (mask, pattern) ∈ rows.map fun r => (r.mask, r.pattern))
    (h : op &&& mask = pattern) : ∃ r ∈ rows, r.hits op = true := by
  obtain ⟨r, hr, literal⟩ := List.mem_map.mp listed
  cases literal
  exact ⟨r, hr, beq_iff_eq.mpr h⟩

/-- Every word of the map by major opcode (R97) matches a row of R96. -/
theorem exists_hits_of_recognised {op : Word} (h : recognised op = true) : ∃ r ∈ rows, r.hits op = true := by
  unfold recognised at h
  split at h
  case h_1 =>
    simp only [Bool.or_eq_true, beq_iff_eq] at h
    rcases h with rfl | rfl <;> exact exists_hits (mask := 0xFFFF) (by decide) rfl
  case h_2 major | h_3 major | h_4 major | h_5 major | h_6 major | h_7 major | h_8 major =>
    exact exists_hits (by decide) (and_major major)
  case h_9 major => exact exists_hits (by decide) (and_register major (beq_iff_eq.mp h))
  case h_10 major =>
    have few : op.toNat % 16 ≤ 3 := of_decide_eq_true h
    interval_cases low : op.toNat % 16 <;> exact exists_hits (by decide) (and_register major low)
  case h_11 major =>
    simp only [List.contains_eq_mem, List.mem_cons, List.not_mem_nil, or_false, decide_eq_true_eq] at h
    rcases h with low | low | low | low | low <;> exact exists_hits (by decide) (and_function major low)
  case h_12 => exact absurd h Bool.false_ne_true

theorem recognised_eq_false_iff (op : Word) : recognised op = false ↔ ∀ r ∈ rows, r.hits op = false := by
  constructor
  · intro unrecognised r hr
    refine Bool.eq_false_of_not_eq_true fun h => ?_
    exact Bool.false_ne_true (unrecognised.symm.trans (recognised_of_hits hr h))
  · intro unmatched
    refine Bool.eq_false_of_not_eq_true fun h => ?_
    obtain ⟨r, hr, hits⟩ := exists_hits_of_recognised h
    exact Bool.false_ne_true ((unmatched r hr).symm.trans hits)

/-- Settles O13: a row that matches gives the word back, and where none does the term carries the word. -/
theorem encodeOfDecodeIsWord : Obligations.EncodeOfDecodeIsWord := by
  intro op
  obtain ⟨r, hr, hits, decoded⟩ | ⟨unmatched, decoded⟩ := decode_cases op
  · rw [decoded]
    exact Row.build_wellFormed_and_encode hr hits
  · have unrecognised : recognised op = false := (recognised_eq_false_iff op).mpr unmatched
    rw [decoded]
    exact ⟨by rw [Instr.wellFormed, unrecognised]; rfl, rfl⟩

/-- Settles O15: a decoded term is well formed, so the no-op's word is outside R97's map; such a word matches no row. -/
theorem unrecognisedWordsAreTheRestOfTheMap : Obligations.UnrecognisedWordsAreTheRestOfTheMap := by
  intro op
  constructor
  · intro decoded
    obtain ⟨wf, _⟩ := encodeOfDecodeIsWord op
    rwa [decoded, Instr.wellFormed, Bool.not_eq_true'] at wf
  · intro unrecognised
    exact decode_of_no_hits ((recognised_eq_false_iff op).mp unrecognised)

end Sys2Proof

namespace Sys2Proof.Machine

/-! ## An execute stage faults exactly when R260's table raises (R260, R263) -/

/-- Settles O39: a raised cause is taken; without one the instruction completes, and no completion writes MODE. -/
theorem execFaultsExactlyWhenRaised : Obligations.ExecFaultsExactlyWhenRaised := by
  constructor
  · intro i c s raised
    exact ⟨executeFault c i s, exec_of_raises raised, executeFault_takesFault c i s⟩
  · intro i s t h before after
    obtain ⟨_, rfl⟩ | ⟨c, raised, _⟩ := exec_cases h
    · have kept : (completed i s).mode = s.mode := completed_frame i s .mode (by cases i <;> simp [writtenBy])
      exact absurd (kept.symm.trans after) before
    · exact ⟨c, raised⟩

/-! ## No state with the invariant stops the model (R98, R125, R242, R260) -/

/-- With SP at most 16 every instruction answers a next state: a RET that does not fault has its stack slot. -/
theorem exec_eq_next {s : State} (bound : s.sp.toNat ≤ 16) (i : Instr) : ∃ t, exec i s = .next t := by
  cases i with
  | ret =>
    by_cases empty : s.sp = 0
    · exact ⟨_, exec_of_raises (i := .ret) (c := .stackUnderflow) empty⟩
    · obtain ⟨_, popped⟩ := popReturn_eq empty bound
      exact ⟨_, by rw [exec, execRet, if_neg empty, popped]⟩
  | call nnn =>
    rw [exec, execCall]
    split
    · exact ⟨_, rfl⟩
    · split <;> exact ⟨_, rfl⟩
  | storeRegs x =>
    rw [exec, execStoreRegs]
    split <;> exact ⟨_, rfl⟩
  | loadRegs x =>
    rw [exec, execLoadRegs]
    split <;> exact ⟨_, rfl⟩
  | cls | jp | seByte | sneByte | seReg | ldByte | addByte | ldReg | orReg | andReg | xorReg | ldI | ldFromDt | ldToSt
  | addI | unrecognised => exact ⟨_, rfl⟩

theorem instructionStep_eq_next {s : State} (bound : s.sp.toNat ≤ 16) : ∃ t, instructionStep s = .next t := by
  cases fetched : fetchWord s with
  | none => exact ⟨_, instructionStep_unfetched fetched⟩
  | some op =>
    rw [instructionStep_fetched fetched]
    exact exec_eq_next (s := s.advance) bound (decode op)

theorem engineTurn_eq_next {s : State} (bound : s.sp.toNat ≤ 16) : ∃ t, engineTurn s = .next t := by
  by_cases running : s.mode = .running
  · rw [engineTurn_running running]
    exact instructionStep_eq_next bound
  · exact ⟨s, engineTurn_idle running⟩

theorem stepOnce_eq_next {s : State} (bound : s.sp.toNat ≤ 16) : ∃ t, stepOnce s = .next t := by
  by_cases stopped : s.mode = .stopped
  · obtain ⟨t, stepped⟩ := instructionStep_eq_next bound
    exact ⟨_, by rw [stepOnce_stopped stopped, stepped, mapNext]⟩
  · exact ⟨_, stepOnce_ignored stopped⟩

theorem perform_eq_next {s : State} (bound : s.sp.toNat ≤ 16) (a : Action) : ∃ t, perform a s = .next t := by
  cases a with
  | engine => exact engineTurn_eq_next bound
  | tick => exact ⟨_, rfl⟩
  | port op =>
    by_cases once : op = .stepOnce
    · subst once
      exact stepOnce_eq_next bound
    · exact ⟨_, perform_port once s⟩

/-- Settles O4: of the invariant only the bound on SP is needed. -/
theorem invariantStatesAlwaysStep : Obligations.InvariantStatesAlwaysStep := by
  intro s inv
  obtain ⟨bound, _⟩ := inv
  cases due : s.agenda with
  | nil =>
    rw [step_empty due]
    exact engineTurn_eq_next bound
  | cons a rest =>
    rw [step_agenda due]
    exact perform_eq_next (s := s.withAgenda rest) bound a

end Sys2Proof.Machine

/-! PROOFS. The rules of spec/40_step_cycle.md: when the machine's step is an instruction step (R120, R239), what it executes
(R121 to R125), the default no-op (R126), the jump to its own address (R127) and execution off the end of memory (R128). -/

namespace Sys2Proof.Machine

/-! ## When the machine's step is an instruction step (R120, R239) -/

theorem step_of_aboutToStep {s : State} (due : AboutToStep s) : step s = instructionStep s := by
  obtain ⟨running, empty⟩ := due
  rw [step_empty empty, engineTurn_running running]

theorem step_of_engine_named {s : State} {rest : List Action} (running : s.mode = .running)
    (named : s.agenda = .engine :: rest) : step s = instructionStep (s.withAgenda rest) := by
  rw [step_agenda named]
  exact engineTurn_running (s := s.withAgenda rest) running

theorem step_of_stepOnce_named {s : State} {rest : List Action} (stopped : s.mode = .stopped)
    (named : s.agenda = .port .stepOnce :: rest) :
    step s = mapNext (fun t => t.withReply (stepOutcome t)) (instructionStep (s.withAgenda rest)) := by
  rw [step_agenda named]
  exact stepOnce_stopped (s := s.withAgenda rest) stopped

/-! ## What an instruction step executes (R121 to R125) -/

theorem instructionStep_inside {s : State} (fetchable : s.pc.toNat ≤ 0xFFE) :
    instructionStep s =
      exec (decode (wordOfBytes (s.mem.read s.pc.toNat) (s.mem.read (s.pc.toNat + 1)))) s.advance :=
  instructionStep_fetched (fetchWord_inside fetchable)

theorem instructionStep_outside {s : State} (outside : 0xFFF ≤ s.pc.toNat) :
    instructionStep s = .next (fetchFault s) :=
  instructionStep_unfetched (fetchWord_outside outside)

theorem instructionStep_of_decodeBytes {s : State} {i : Instr} (fetchable : s.pc.toNat ≤ 0xFFE)
    (decoded : decodeBytes [s.mem.read s.pc.toNat, s.mem.read (s.pc.toNat + 1)] = .ok (i, [])) :
    instructionStep s = exec i s.advance := by
  rw [instructionStep_inside fetchable, decodeBytes_pair_eq_ok_iff.mp decoded]

/-- Settles O5: the agenda has no part in the fetch, so the named turn is the same step one action on. -/
theorem stepRunsDecodedInstruction : Obligations.StepRunsDecodedInstruction := by
  intro s i rest fetchable decoded
  have runs : instructionStep s = exec i s.advance := instructionStep_of_decodeBytes fetchable decoded
  refine ⟨runs, fun running empty => ?_, fun running named => ?_⟩
  · rw [step_of_aboutToStep ⟨running, empty⟩]
    exact runs
  · rw [step_of_engine_named running named]
    exact instructionStep_of_decodeBytes (s := s.withAgenda rest) fetchable decoded

/-- Settles O6: the step is the fetch fault, whose frame is MODE and the report. -/
theorem fetchOutsideMemoryFaults : Obligations.FetchOutsideMemoryFaults := by
  intro s outside
  refine ⟨fetchFault s, instructionStep_outside outside, rfl, rfl, rfl, rfl, rfl, fetchFault_frame s,
    fun running empty => ?_, fun rest running named => ?_⟩
  · rw [step_of_aboutToStep ⟨running, empty⟩, instructionStep_outside outside]
  · rw [step_of_engine_named running named]
    exact instructionStep_outside (s := s.withAgenda rest) outside

/-! ## What an execute stage leaves of MODE and the agenda -/

/-- An execute stage that does not leave the engine FAULTED has completed. -/
theorem exec_of_not_faulted {i : Instr} {s t : State} (h : exec i s = .next t) (unfaulted : t.mode ≠ .faulted) :
    t = completed i s := by
  obtain ⟨_, rfl⟩ | ⟨c, _, rfl⟩ := exec_cases h
  · rfl
  · exact absurd rfl unfaulted

theorem exec_mode {i : Instr} {s t : State} (h : exec i s = .next t) : t.mode = s.mode ∨ t.mode = .faulted := by
  by_cases faulted : t.mode = .faulted
  · exact .inr faulted
  · have unlisted : Part.mode ∉ writtenBy i := by cases i <;> simp [writtenBy]
    rw [exec_of_not_faulted h faulted]
    exact .inl (completed_frame i s .mode unlisted)

theorem exec_agenda {i : Instr} {s t : State} (h : exec i s = .next t) : t.agenda = s.agenda := by
  obtain ⟨_, rfl⟩ | ⟨c, _, rfl⟩ := exec_cases h
  · have unlisted : Part.own ∉ writtenBy i := by cases i <;> simp [writtenBy]
    obtain ⟨agenda, _⟩ := completed_frame i s .own unlisted
    exact agenda
  · rfl

theorem instructionStep_agenda {s t : State} (h : instructionStep s = .next t) : t.agenda = s.agenda := by
  obtain ⟨_, rfl⟩ | ⟨_, op, _, executed⟩ := instructionStep_cases h
  · rfl
  · exact (exec_agenda executed : t.agenda = s.advance.agenda)

theorem aboutToStep_of_step {s t : State} (due : AboutToStep s) (h : step s = .next t) (running : t.mode = .running) :
    AboutToStep t := by
  rw [step_of_aboutToStep due] at h
  obtain ⟨_, empty⟩ := due
  exact ⟨running, (instructionStep_agenda h).trans empty⟩

/-! ## `stepOnce` (R239) -/

/-- Settles O8: the step taken is the instruction step, and MODE after it, STOPPED as before or FAULTED, is the outcome
delivered. -/
theorem stepOnceTakesOneStepWhenStopped : Obligations.StepOnceTakesOneStepWhenStopped := by
  intro s rest named
  refine ⟨fun stopped fetchable t executed => ?_, fun stopped outside => ?_, fun notStopped => ?_⟩
  · have stepped : instructionStep (s.withAgenda rest) = .next t :=
      (instructionStep_inside (s := s.withAgenda rest) fetchable).trans executed
    have delivered : step s = .next (t.withReply (stepOutcome t)) := by
      rw [step_of_stepOnce_named stopped named, stepped, mapNext]
    rw [stepOutcome] at delivered
    obtain kept | faulted := exec_mode executed
    · have stayed : t.mode = .stopped := kept.trans stopped
      exact .inl ⟨stayed, by simpa [stayed] using delivered⟩
    · exact .inr ⟨faulted, by simpa [faulted] using delivered⟩
  · have stepped : instructionStep (s.withAgenda rest) = .next (fetchFault (s.withAgenda rest)) :=
      instructionStep_outside (s := s.withAgenda rest) outside
    have frame : UnchangedBut [.mode, .report, .own] s
        ((fetchFault (s.withAgenda rest)).withReply (.stepFaulted .fetchBounds s.pc 0)) :=
      ((fetchFault_frame s).mono (by decide)).trans ((own_frame rest _ (fetchFault s)).mono (by decide))
    refine ⟨_, ?_, rfl, rfl, rfl, rfl, rfl, rfl, frame⟩
    rw [step_of_stepOnce_named stopped named, stepped]
    rfl
  · rw [step_agenda named]
    exact stepOnce_ignored (s := s.withAgenda rest) notStopped

/-! ## The default no-op (R126) -/

/-- Settles O35: by R97's map the word decodes to the no-op, so the fetch's advance of PC is all there is. -/
theorem unrecognisedWordOnlyAdvancesPc : Obligations.UnrecognisedWordOnlyAdvancesPc := by
  refine ⟨fun _ _ => rfl, fun s op due fetched unrecognised => ?_⟩
  have decoded : decode op = .unrecognised op := (unrecognisedWordsAreTheRestOfTheMap op).mpr unrecognised
  rw [step_of_aboutToStep due, instructionStep_fetched fetched, decoded]
  rfl

/-! ## The jump to its own address (R127, R311) -/

/-- An address inside memory is its own low 12 bits. -/
theorem zextAddr_setWidth {w : Word} (inside : w.toNat ≤ 0xFFF) : zextAddr (w.setWidth 12) = w := by
  refine BitVec.eq_of_toNat_eq ?_
  rw [zextAddr, BitVec.toNat_setWidth, BitVec.toNat_setWidth]
  omega

/-- The word `0x1000 | a` of an address inside memory is the jump to it. -/
theorem decode_jump_word {a : Word} (inside : a.toNat ≤ 0xFFF) : decode (0x1000 ||| a) = .jp (a.setWidth 12) := by
  have word : 0x1000 ||| a = encode (.jp (a.setWidth 12)) :=
    congrArg (0x1000#16 ||| ·) (zextAddr_setWidth inside).symm
  rw [word]
  exact decodeOfEncodeIsInstruction _ rfl

/-- Settles O36: the jump writes back the PC that the fetch advanced. -/
theorem selfJumpIsFixedPoint : Obligations.SelfJumpIsFixedPoint := by
  intro s due selfJump
  have fetched : fetchWord s = some (0x1000 ||| s.pc) := beq_iff_eq.mp selfJump
  obtain ⟨fetchable, _⟩ := fetchWord_eq_some fetched
  have inside : s.pc.toNat ≤ 0xFFF := by omega
  have executed : step s = .next (s.advance.withPC (zextAddr (s.pc.setWidth 12))) := by
    rw [step_of_aboutToStep due, instructionStep_fetched fetched, decode_jump_word inside]
    rfl
  rw [executed, zextAddr_setWidth inside]
  rfl

/-! ## Execution off the end of memory (R128) -/

/-- Where memory is empty every fetch inside it reads the no-op 0x0000. -/
theorem step_of_mem_empty {s : State} (due : AboutToStep s) (empty : s.mem = []) (fetchable : s.pc.toNat ≤ 0xFFE) :
    step s = .next s.advance := by
  obtain ⟨_, noOpStep⟩ := unrecognisedWordOnlyAdvancesPc
  have fetched : fetchWord s = some 0 := by
    rw [fetchWord_inside fetchable, empty, Memory.read_nil, Memory.read_nil]
    rfl
  exact noOpStep s 0 due fetched rfl

theorem run_of_mem_empty {s : State} (due : AboutToStep s) (empty : s.mem = []) (start : s.pc = 0) {n : Nat}
    (bound : n ≤ 2048) : core.run n s = .next (s.withPC (BitVec.ofNat 16 (2 * n))) := by
  induction n with
  | zero =>
    have unmoved : s.withPC 0 = s := by
      rw [← start]
      rfl
    exact congrArg Host.Outcome.next unmoved.symm
  | succ n ih =>
    have fetchable : (BitVec.ofNat 16 (2 * n)).toNat ≤ 0xFFE := by
      rw [BitVec.toNat_ofNat]
      omega
    have noOp := step_of_mem_empty (s := s.withPC (BitVec.ofNat 16 (2 * n))) due empty fetchable
    have advanced : BitVec.ofNat 16 (2 * (n + 1)) = BitVec.ofNat 16 (2 * n) + 2 := by
      rw [Nat.mul_succ, BitVec.ofNat_add]
      rfl
    rw [run_add (ih (by omega)) 1, run_succ noOp, run_zero, advanced]
    rfl

theorem step_of_pc_outside {s : State} (due : AboutToStep s) (outside : 0xFFF ≤ s.pc.toNat) :
    step s = .next (fetchFault s) := by
  rw [step_of_aboutToStep due, instructionStep_outside outside]

/-- Settles O37: 2048 no-ops by induction, then the fetch fault at 0x1000. -/
theorem emptyMemoryRunsOffTheEnd : Obligations.EmptyMemoryRunsOffTheEnd := by
  intro s due empty start
  refine ⟨fun n bound => run_of_mem_empty due empty start bound, fetchFault (s.withPC 0x1000), ?_, rfl, rfl, rfl, rfl,
    rfl, ?_⟩
  · have faulted : step (s.withPC 0x1000) = .next (fetchFault (s.withPC 0x1000)) :=
      step_of_pc_outside (s := s.withPC 0x1000) due (by decide : 0xFFF ≤ (0x1000 : Word).toNat)
    have ran : core.run 2048 s = .next (s.withPC 0x1000) := run_of_mem_empty due empty start (Nat.le_refl _)
    rw [run_add ran 1, run_succ faulted, run_zero]
  · exact ((withPC_frame 0x1000 s).mono (by decide)).trans ((fetchFault_frame _).mono (by decide))

/-- Settles O56: at 0xFFE only the fetch moves PC unless the instruction writes it; a step that stays RUNNING leaves the
next one due, and past the last fetchable address that is the fetch fault. -/
theorem executionOffTheEndFaults : Obligations.ExecutionOffTheEndFaults := by
  constructor
  · intro s due last
    have fetchable : s.pc.toNat ≤ 0xFFE := by
      rw [last]
      decide
    have fetched : fetchWord s = some (wordOfBytes (s.mem.read 0xFFE) (s.mem.read 0xFFF)) := by
      rw [fetchWord_inside fetchable, last]
      rfl
    refine ⟨fetched, fun t h running unlisted => ?_⟩
    rw [step_of_aboutToStep due, instructionStep_fetched fetched] at h
    rw [exec_of_not_faulted h (by simp [running])]
    calc (completed _ s.advance).pc
        = s.pc + 2 := completed_frame _ s.advance .pc unlisted
      _ = 0x1000 := by
        rw [last]
        rfl
  · intro s t due h running outside
    exact ⟨fetchFault t, step_of_pc_outside (aboutToStep_of_step due h running) outside, rfl, rfl, rfl, rfl, rfl,
      fetchFault_frame t⟩

end Sys2Proof.Machine

/-! PROOFS. The rules of spec/41_display_and_control_transfer.md: CLS (R140), RET (R141), JP (R142), CALL (R143) and a CALL
with the RET that follows it (R144). -/

namespace Sys2Proof.Machine

/-- A row of the opcode map is the meaning of every word it matches. -/
theorem decodesAs_of_mem_rows {mask pattern : Word} {build : Word → Instr} (listed : ⟨mask, pattern, build⟩ ∈ rows) :
    DecodesAs mask pattern build :=
  fun _ matched => decode_of_hits listed (beq_iff_eq.mpr matched)

theorem zextAddr_toNat (nnn : Addr) : (zextAddr nnn).toNat = nnn.toNat :=
  BitVec.toNat_setWidth_of_le (by decide)

/-- A part that is the same after all can be struck from a frame. -/
theorem UnchangedBut.of_same {p : Part} {ps : List Part} {s t : State} (frame : UnchangedBut (p :: ps) s t)
    (same : p.Same s t) : UnchangedBut ps s t := by
  intro q unlisted
  by_cases q_eq : q = p
  · exact q_eq ▸ same
  · exact frame q (List.not_mem_cons_of_ne_of_not_mem q_eq unlisted)

/-! ## CLS and JP (R140, R142) -/

/-- Settles O16: CLS is the clear operation, whose display reads zero at every cell and whose frame is DISP alone. -/
theorem clsClearsDisplay : Obligations.ClsClearsDisplay :=
  ⟨decodesAs_of_mem_rows (List.mem_of_getElem? (i := 0) rfl),
    fun s => ⟨clearDisplay s, rfl, clearDisplay_read s, clearDisplay_frame s⟩⟩

/-- Settles O19: the zero-extended address is nnn as a number. -/
theorem jpLoadsAddress : Obligations.JpLoadsAddress :=
  ⟨decodesAs_of_mem_rows (List.mem_of_getElem? (i := 12) rfl),
    fun nnn s => ⟨s.withPC (zextAddr nnn), rfl, zextAddr_toNat nnn, withPC_frame _ s⟩⟩

/-! ## RET and CALL (R141, R143) -/

/-- With entries on the stack RET completes with the top one, `STACK[k]`, as PC. -/
theorem exec_ret_of_sp {s : State} {k : Fin 16} (sp : s.sp.toNat = k.val + 1) :
    exec .ret s = .next ((s.withSP (s.sp - 1)).withPC s.stack[k]) := by
  have nonempty : s.sp ≠ 0 := by bv_omega
  obtain ⟨_, popped⟩ := popReturn_eq nonempty (by omega)
  simp only [sp, Nat.add_sub_cancel] at popped
  rw [exec, execRet, if_neg nonempty, popped]
  rfl

/-- With room on the stack CALL completes, whatever nnn is: none lies outside memory. -/
theorem exec_call_of_room (nnn : Addr) {s : State} (room : s.sp.toNat < 16) :
    exec (.call nnn) s = .next ((pushReturn s).withPC (zextAddr nnn)) := by
  have inMemory : ¬ 0xFFF < (zextAddr nnn).toNat := Nat.not_lt.mpr (zextAddr_le nnn)
  rw [exec, execCall, if_neg (Nat.not_le.mpr room), if_neg inMemory]

/-- Settles O17: the pop where the stack has an entry, R260's fault where it is empty. -/
theorem retPopsReturnAddress : Obligations.RetPopsReturnAddress := by
  refine ⟨decodesAs_of_mem_rows (List.mem_of_getElem? (i := 1) rfl), fun s k sp => ?_, fun s empty => ?_⟩
  · have popped : (s.sp - 1).toNat = k.val := by bv_omega
    exact ⟨_, exec_ret_of_sp sp, popped, rfl,
      ((withSP_frame _ s).mono (by decide)).trans ((withPC_frame _ _).mono (by decide))⟩
  · exact ⟨_, exec_of_raises (i := .ret) (c := .stackUnderflow) empty, executeFault_takesFault .stackUnderflow .ret s⟩

/-- Settles O20: the push and the jump where the stack has room, R260's fault where it is full. -/
theorem callPushesReturnAddress : Obligations.CallPushesReturnAddress := by
  refine ⟨decodesAs_of_mem_rows (List.mem_of_getElem? (i := 13) rfl), fun nnn s k sp => ?_, fun nnn s full => ?_⟩
  · have room : s.sp.toNat < 16 := by omega
    have pushed : (s.sp + 1).toNat = k.val + 1 := by bv_omega
    have slot : (pushReturn s).stack[k] = s.pc := (pushReturn_entry k.isLt).trans (if_pos sp)
    refine ⟨_, exec_call_of_room nnn room, slot, fun j other => ?_, pushed, zextAddr_toNat nnn,
      completed_frame (.call nnn) s⟩
    have otherSlot : s.sp.toNat ≠ j.val := by omega
    exact (pushReturn_entry j.isLt).trans (if_neg otherSlot)
  · exact ⟨_, exec_of_raises (i := .call nnn) (c := .stackOverflow) full, executeFault_takesFault ..⟩

/-! ## A CALL and the RET that follows it (R144) -/

/-- Settles O21: RET pops the slot that CALL pushed, so PC and SP are the same after all. -/
theorem callThenRetRestores : Obligations.CallThenRetRestores := by
  intro nnn s room
  obtain ⟨_, callPushes, _⟩ := callPushesReturnAddress
  obtain ⟨_, retPops, _⟩ := retPopsReturnAddress
  obtain ⟨t, called, slot, others, pushed, _, callFrame⟩ := callPushes nnn s ⟨s.sp.toNat, room⟩ rfl
  obtain ⟨u, returned, popped, target, retFrame⟩ := retPops t ⟨s.sp.toNat, room⟩ pushed
  have pc : u.pc = s.pc := target.trans slot
  have sp : u.sp = s.sp := BitVec.eq_of_toNat_eq popped
  have frame : UnchangedBut [.pc, .sp, .stack] s u := callFrame.trans (retFrame.mono (by decide))
  refine ⟨t, u, called, returned, pc, sp, fun k other => ?_, (frame.of_same pc).of_same sp⟩
  calc u.stack[k]
      = t.stack[k] := retFrame .stack (by decide) k
    _ = s.stack[k] := others k (Fin.ne_of_val_ne other)

end Sys2Proof.Machine

/-! PROOFS. The rules of spec/42_skip.md: SE with a byte (R150), SNE (R151) and SE with a register (R152). -/

namespace Sys2Proof.Machine

/-- The three skips differ in their test alone: whatever the test, a taken skip adds 2 to PC, any other leaves PC. -/
theorem skipsWhen_of_exec_eq_skipIf {ins : Instr} {test : State → Bool} {condition : State → Prop}
    (runs : ∀ s, exec ins s = .next (skipIf (test s) s)) (decides : ∀ s, test s = true ↔ condition s) :
    SkipsWhen ins condition := by
  intro s
  refine ⟨skipIf (test s) s, runs s, fun holds => ?_, fun fails => ?_, skipIf_frame _ s⟩
  · have passed : test s = true := (decides s).mpr holds
    rw [skipIf_pc, if_pos passed]
  · have failed : ¬ test s = true := fails ∘ (decides s).mp
    rw [skipIf_pc, if_neg failed]

/-- Settles O22: each skip's row is in the opcode map, and its Boolean test decides the condition the rule names. -/
theorem skipsCompareAndAddTwo : Obligations.SkipsCompareAndAddTwo :=
  ⟨decodesAs_of_mem_rows (List.mem_of_getElem? (i := 14) rfl),
    decodesAs_of_mem_rows (List.mem_of_getElem? (i := 15) rfl),
    decodesAs_of_mem_rows (List.mem_of_getElem? (i := 7) rfl),
    fun _ _ => skipsWhen_of_exec_eq_skipIf (fun _ => rfl) fun _ => beq_iff_eq,
    fun _ _ => skipsWhen_of_exec_eq_skipIf (fun _ => rfl) fun _ => bne_iff_ne,
    fun _ _ => skipsWhen_of_exec_eq_skipIf (fun _ => rfl) fun _ => beq_iff_eq⟩

end Sys2Proof.Machine

/-! PROOFS. The rules of spec/43_load_and_alu.md: the loads (R160, R162) with the read of DT (R180), the byte sum (R161)
and the bitwise operations (R163 to R165). -/

namespace Sys2Proof.Machine

/-- The instructions of this family differ in the value alone: whatever it is, writing it to `V[x]` leaves the rest. -/
theorem writesOnlyRegister_of_exec_eq_setReg {ins : Instr} {x : Reg} {value : State → Byte}
    (runs : ∀ s, exec ins s = .next (s.setReg x (value s))) : WritesOnlyRegister ins x value :=
  fun s => ⟨s.setReg x (value s), runs s, reg_setReg_same .., fun _ other => reg_setReg_other other _ s,
    setReg_frame x _ s⟩

/-! ## The loads (R160, R162, R180) -/

/-- Settles O24: each load's row is in the opcode map, and its execute stage writes one register. -/
theorem loadsWriteOnlyTheirRegister : Obligations.LoadsWriteOnlyTheirRegister :=
  ⟨decodesAs_of_mem_rows (List.mem_of_getElem? (i := 16) rfl),
    decodesAs_of_mem_rows (List.mem_of_getElem? (i := 8) rfl),
    decodesAs_of_mem_rows (List.mem_of_getElem? (i := 2) rfl),
    fun _ _ => writesOnlyRegister_of_exec_eq_setReg fun _ => rfl,
    fun _ _ => writesOnlyRegister_of_exec_eq_setReg fun _ => rfl,
    fun _ => writesOnlyRegister_of_exec_eq_setReg fun _ => rfl⟩

/-! ## The byte sum (R161, R166) -/

/-- The truncated sum as a number: no carry is kept. -/
theorem sum8_eq_ofNat (a b : Byte) : sum8 a b = BitVec.ofNat 8 ((a.toNat + b.toNat) % 256) :=
  BitVec.eq_of_toNat_eq (Nat.mod_mod _ 256).symm

/-- Settles O25: the byte written is the sum of the two numbers modulo 256. -/
theorem addByteWrapsModulo256 : Obligations.AddByteWrapsModulo256 := by
  refine ⟨decodesAs_of_mem_rows (List.mem_of_getElem? (i := 17) rfl), fun x kk => ?_⟩
  refine writesOnlyRegister_of_exec_eq_setReg fun s => ?_
  rw [← sum8_eq_ofNat]
  rfl

/-! ## The bitwise operations (R163 to R165) -/

/-- A write of one register said bit by bit, where the value written is known by its bits. -/
theorem WritesOnlyRegister.bit_by_bit {ins : Instr} {x : Reg} {value : State → Byte}
    (writes : WritesOnlyRegister ins x value) {s : State} {bit : Nat → Bool}
    (bits : ∀ k, (value s).getLsbD k = bit k) :
    ∃ t : State, exec ins s = .next t ∧ (∀ k : Nat, (t.reg x).getLsbD k = bit k) ∧
      (∀ r : Reg, r ≠ x → t.reg r = s.reg r) ∧ UnchangedBut [.v] s t := by
  obtain ⟨t, runs, written, others, frame⟩ := writes s
  exact ⟨t, runs, fun k => written ▸ bits k, others, frame⟩

theorem orReg_writesOnlyRegister (x y : Reg) : WritesOnlyRegister (.orReg x y) x fun s => s.reg x ||| s.reg y :=
  writesOnlyRegister_of_exec_eq_setReg fun _ => rfl

theorem andReg_writesOnlyRegister (x y : Reg) : WritesOnlyRegister (.andReg x y) x fun s => s.reg x &&& s.reg y :=
  writesOnlyRegister_of_exec_eq_setReg fun _ => rfl

theorem xorReg_writesOnlyRegister (x y : Reg) : WritesOnlyRegister (.xorReg x y) x fun s => s.reg x ^^^ s.reg y :=
  writesOnlyRegister_of_exec_eq_setReg fun _ => rfl

/-- Settles O26: each row is in the opcode map, and the operation on bytes combines them bit by bit. -/
theorem logicActsBitByBit : Obligations.LogicActsBitByBit :=
  ⟨decodesAs_of_mem_rows (List.mem_of_getElem? (i := 9) rfl),
    decodesAs_of_mem_rows (List.mem_of_getElem? (i := 10) rfl),
    decodesAs_of_mem_rows (List.mem_of_getElem? (i := 11) rfl),
    fun x y _ => ⟨(orReg_writesOnlyRegister x y).bit_by_bit fun _ => BitVec.getLsbD_or,
      (andReg_writesOnlyRegister x y).bit_by_bit fun _ => BitVec.getLsbD_and,
      (xorReg_writesOnlyRegister x y).bit_by_bit fun _ => BitVec.getLsbD_xor⟩⟩

end Sys2Proof.Machine

/-! PROOFS. The rules of spec/44_index_register.md: LD I (R170) and ADD I (R171). -/

namespace Sys2Proof.Machine

/-- Whatever word is written to I, an instruction that writes just that word completes with it in I and leaves the rest. -/
theorem next_of_exec_eq_withI {ins : Instr} {w : Word} {n : Nat} {s : State} (runs : exec ins s = .next (s.withI w))
    (value : w.toNat = n) : ∃ t : State, exec ins s = .next t ∧ t.i.toNat = n ∧ UnchangedBut [.i] s t :=
  ⟨s.withI w, runs, value, withI_frame w s⟩

/-- Settles O28: the zero-extended address is nnn as a number. -/
theorem ldILoadsAddress : Obligations.LdILoadsAddress :=
  ⟨decodesAs_of_mem_rows (List.mem_of_getElem? (i := 18) rfl),
    fun nnn _ => next_of_exec_eq_withI rfl (zextAddr_toNat nnn)⟩

theorem zextByte_toNat (b : Byte) : (zextByte b).toNat = b.toNat :=
  BitVec.toNat_setWidth_of_le (by decide)

/-- The truncated sum as a number: no carry is kept and no range is checked. -/
theorem sum16_toNat (w : Word) (b : Byte) : (sum16 w b).toNat = (w.toNat + b.toNat) % 65536 := by
  rw [sum16, BitVec.toNat_add, zextByte_toNat]

/-- Settles O29: the word written to I is the sum of the two numbers modulo 65536. -/
theorem addIWrapsModulo65536 : Obligations.AddIWrapsModulo65536 :=
  ⟨decodesAs_of_mem_rows (List.mem_of_getElem? (i := 4) rfl),
    fun x s => next_of_exec_eq_withI rfl (sum16_toNat s.i (s.reg x))⟩

end Sys2Proof.Machine

/-! PROOFS. The rules of spec/45_timer_access.md: the write of ST (R181); the read of DT (R180) stands with the loads. -/

namespace Sys2Proof.Machine

/-- LD ST completes from every state, with V[x] as the whole of the new ST: whatever ST held plays no part. -/
theorem exec_ldToSt (x : Reg) (s : State) : exec (.ldToSt x) s = .next (s.withST (s.reg x)) := rfl

/-- Settles O30: the row of Fx18 is in the opcode map, and its execute stage is the write of ST alone. -/
theorem ldStWritesSoundTimer : Obligations.LdStWritesSoundTimer :=
  ⟨decodesAs_of_mem_rows (List.mem_of_getElem? (i := 3) rfl),
    fun x s => ⟨s.withST (s.reg x), exec_ldToSt x s, rfl, withST_frame _ s⟩⟩

end Sys2Proof.Machine

/-! PROOFS. The rules of spec/46_register_memory_transfer.md: the block store (R190), the block load (R191) and the round
trip through memory, for which I must stay (R192). -/

namespace Sys2Proof.Machine

/-! ## The block store (R190) -/

/-- The cell that belongs to a register of the block holds that register after the store. -/
theorem read_storeBlock_reg {x r : Reg} {s : State} (wf : s.mem.wf = true) (fits : s.i.toNat + x.toNat ≤ 0xFFF)
    (listed : r.toNat ≤ x.toNat) : (storeBlock x s).mem.read (s.i.toNat + r.toNat) = s.reg r := by
  rw [read_storeBlock_inside wf fits listed, BitVec.ofNat_toNat, BitVec.setWidth_eq]

/-- Settles O31: the block write where the block lies in memory, R260's fault where it leaves it. -/
theorem storeRegsWritesBlock : Obligations.StoreRegsWritesBlock := by
  obtain ⟨faults, _⟩ := execFaultsExactlyWhenRaised
  refine ⟨decodesAs_of_mem_rows (List.mem_of_getElem? (i := 5) rfl), fun x s wf fits => ?_, fun x s outside => ?_⟩
  · exact ⟨storeBlock x s, exec_storeRegs_of_fits fits, fun _ => read_storeBlock_reg wf fits,
      fun _ => read_storeBlock_outside, storeBlock_frame x s⟩
  · exact faults (.storeRegs x) .memWriteBounds s outside

/-! ## The block load (R191) -/

theorem exec_loadRegs_of_fits {x : Reg} {s : State} (fits : s.i.toNat + x.toNat ≤ 0xFFF) :
    exec (.loadRegs x) s = .next (loadBlock x s) :=
  if_neg fun outside => Nat.not_lt.mpr fits ((blockOutside_iff x s).mp outside)

/-- Settles O32: the load of each register up to V[x] where the block lies in memory, R260's fault where it leaves it. -/
theorem loadRegsReadsBlock : Obligations.LoadRegsReadsBlock := by
  obtain ⟨faults, _⟩ := execFaultsExactlyWhenRaised
  refine ⟨decodesAs_of_mem_rows (List.mem_of_getElem? (i := 6) rfl), fun x s fits => ?_, fun x s outside => ?_⟩
  · exact ⟨loadBlock x s, exec_loadRegs_of_fits fits, fun r listed => (reg_loadBlock x r s).trans (if_pos listed),
      fun r above => (reg_loadBlock x r s).trans (if_neg (Nat.not_le.mpr above)), loadBlock_frame x s⟩
  · exact faults (.loadRegs x) .memReadBounds s outside

/-! ## Store, overwrite, load (R192) -/

/-- Settles O33: as I stays through the store, the load reads the very cells that the registers went to. -/
theorem storeThenLoadRestoresRegisters : Obligations.StoreThenLoadRestoresRegisters := by
  intro x s vs wf fits
  obtain ⟨_, stores, _⟩ := storeRegsWritesBlock
  obtain ⟨_, loads, _⟩ := loadRegsReadsBlock
  obtain ⟨t, stored, cells, _, storeFrame⟩ := stores x s wf fits
  have base : (t.withV vs).i = s.i := storeFrame .i (by decide)
  obtain ⟨u, loaded, listed, above, loadFrame⟩ := loads x (t.withV vs) (base ▸ fits)
  have kept : u.i = (t.withV vs).i := loadFrame .i (by decide)
  refine ⟨t, u, stored, loaded, fun r hr => ?_, above, kept.trans base⟩
  calc u.reg r
      = t.mem.read (s.i.toNat + r.toNat) := base ▸ listed r hr
    _ = s.reg r := cells r hr

end Sys2Proof.Machine

/-! PROOFS. The rules of spec/47_timer_engine.md: what one tick does to the block (R200, R202), any number of ticks in a
row (R205, R208), and `start()` and `stop()` (R203, R204), with what every port operation may write. -/

namespace Sys2Proof.Machine

/-! ## Ticks (R200, R205) -/

theorem withAgenda_frame (as : List Action) (s : State) : UnchangedBut [.own] s (s.withAgenda as) :=
  own_frame as s.reply s

/-- Settles O43: whatever MODE is, the step is the tick, which writes DT and ST alone. -/
theorem tickLowersBothTimers : Obligations.TickLowersBothTimers := by
  intro s rest due
  obtain ⟨agenda, reply⟩ := tick_frame (s.withAgenda rest) .own (by decide)
  have scheduled : UnchangedBut [.dt, .st, .own] s (s.withAgenda rest) := (withAgenda_frame rest s).mono (by decide)
  have ticked : UnchangedBut [.dt, .st, .own] (s.withAgenda rest) (tick (s.withAgenda rest)) :=
    (tick_frame _).mono (by decide)
  refine ⟨tick (s.withAgenda rest), step_agenda due, agenda, reply, scheduled.trans ticked, fun started => ?_,
    fun stopped => ?_⟩
  · exact ⟨tick_dt_toNat (s := s.withAgenda rest) started, tick_st_toNat (s := s.withAgenda rest) started⟩
  · rw [tick_stopped (s := s.withAgenda rest) stopped]
    exact ⟨rfl, rfl⟩

/-- Settles O44, by induction on the number of ticks: no tick changes TRUN, so all of them count or none does. -/
theorem manyTicksSaturateOrDoNothing : Obligations.ManyTicksSaturateOrDoNothing := by
  intro s n rest due
  induction n generalizing s with
  | zero => exact ⟨s, run_zero s, due, rfl, UnchangedBut.refl _ s, fun _ => ⟨rfl, rfl⟩, fun _ => ⟨rfl, rfl⟩⟩
  | succ n ih =>
    obtain ⟨t, ticked, agenda, reply, frame, lowered, kept⟩ :=
      tickLowersBothTimers s (List.replicate n Action.tick ++ rest) due
    obtain ⟨u, ran, agenda', reply', frame', lowered', kept'⟩ := ih t agenda
    have trun : t.trun = s.trun := frame .trun (by decide)
    refine ⟨u, (run_succ ticked n).trans ran, agenda', reply'.trans reply, frame.trans frame', fun started => ?_,
      fun stopped => ?_⟩
    · obtain ⟨dt, st⟩ := lowered started
      obtain ⟨dt', st'⟩ := lowered' (trun.trans started)
      exact ⟨by omega, by omega⟩
    · obtain ⟨dt, st⟩ := kept stopped
      obtain ⟨dt', st'⟩ := kept' (trun.trans stopped)
      exact ⟨dt'.trans dt, st'.trans st⟩

/-! ## What a port operation may write (R220 to R244) -/

/-- The parts of the block that an operation of the host port may write, itself and not by a step it asks for. -/
def portWrites : PortOp → List Part
  | .reset => [.mem, .v, .i, .pc, .sp, .stack, .dt, .st, .disp, .trun, .mode, .report]
  | .start | .stop => [.trun]
  | .run | .stopEngine => [.mode]
  | .writeBytes _ _ => [.mem]
  | .writeRegister _ _ | .writeRegisters _ => [.v]
  | .writePC _ => [.pc]
  | .writeSP _ => [.sp]
  | .writeI _ => [.i]
  | .writeStackFrame _ => [.stack]
  | .writeDT _ => [.dt]
  | .writeST _ => [.st]
  | .stepOnce | .readTRUN | .readStatus | .readBytes _ _ | .readRegister _ | .readRegisters | .readPC | .readSP
  | .readI | .readStackFrame | .readDT | .readST | .readDisplay => []

theorem withStack_frame (ws : Vector Word 16) (s : State) : UnchangedBut [.stack] s (s.withStack ws) := by
  intro p hp
  cases p <;> simp_all [Part.Same, State.reg]

theorem withDT_frame (b : Byte) (s : State) : UnchangedBut [.dt] s (s.withDT b) := by
  intro p hp
  cases p <;> simp_all [Part.Same, State.reg]

/-- Every operation but `reset()`, which puts the reply at its reset value, leaves the model's own fields. -/
theorem portEffect_frame {op : PortOp} (ne : op ≠ .reset) (s : State) :
    UnchangedBut (portWrites op) s (portEffect op s) := by
  cases op with
  | reset => exact absurd rfl ne
  | start | stop => exact withTrun_frame _ s
  | run => exact portRun_frame s
  | stopEngine => exact portStopEngine_frame s
  | writeBytes addr bytes => exact portWriteBytes_frame addr bytes s
  | writeRegister index value => exact portWriteRegister_frame index value s
  | writeRegisters values => exact withV_frame values s
  | writePC value => exact withPC_frame value s
  | writeSP value => exact portWriteSP_frame value s
  | writeI value => exact withI_frame value s
  | writeStackFrame values => exact withStack_frame values s
  | writeDT value => exact withDT_frame value s
  | writeST value => exact withST_frame value s
  | stepOnce | readTRUN | readStatus | readBytes | readRegister | readRegisters | readPC | readSP | readI
  | readStackFrame | readDT | readST | readDisplay => exact UnchangedBut.refl _ s

theorem own_not_mem_portWrites (op : PortOp) : Part.own ∉ portWrites op := by
  cases op <;> simp [portWrites]

theorem eq_reset_of_report_mem {op : PortOp} (h : Part.report ∈ portWrites op) : op = .reset := by
  cases op <;> simp_all [portWrites]

theorem control_of_mode_mem {op : PortOp} (h : Part.mode ∈ portWrites op) :
    op = .reset ∨ op = .run ∨ op = .stopEngine := by
  cases op <;> simp_all [portWrites]

/-- The actions still to come are no state of the block, and even `reset()` keeps them (log entry 11). -/
theorem portTransaction_agenda (op : PortOp) (s : State) : (portTransaction op s).agenda = s.agenda := by
  by_cases reset : op = .reset
  · rw [reset]
    rfl
  · obtain ⟨agenda, _⟩ := portEffect_frame reset s .own (own_not_mem_portWrites op)
    exact agenda

theorem portTransaction_frame {op : PortOp} (ne : op ≠ .reset) (s : State) :
    UnchangedBut (.own :: portWrites op) s (portTransaction op s) :=
  ((portEffect_frame ne s).mono (List.subset_cons_self ..)).trans ((own_frame _ _ _).mono (by simp))

/-- An operation that delivers the reply and has the effect writes nothing but what is listed for it. -/
theorem portDoes_of_portWrites {op : PortOp} {s : State} {reply : Reply} {effect : State → Prop}
    (ne : op ≠ .stepOnce) (ne' : op ≠ .reset) (answer : ∀ rest, portAnswer op (s.withAgenda rest) = reply)
    (effected : ∀ rest, effect (portTransaction op (s.withAgenda rest))) :
    PortDoes op s (portWrites op) reply effect :=
  portDoes_of_portEffect ne (own_not_mem_portWrites op) answer effected fun _ => portEffect_frame ne' _

/-- A read, and a write or command that finds its condition unmet, does nothing but deliver its answer. -/
theorem portDoes_of_no_effect {op : PortOp} {s : State} {reply : Reply} (ne : op ≠ .stepOnce)
    (unaffected : ∀ rest, portEffect op (s.withAgenda rest) = s.withAgenda rest)
    (answer : ∀ rest, portAnswer op (s.withAgenda rest) = reply) : PortDoes op s [] reply fun _ => True :=
  portDoes_of_portEffect ne (by decide) answer (fun _ => trivial) fun rest => by
    rw [unaffected]
    exact UnchangedBut.refl _ _

/-! ## `start()` and `stop()` (R203, R204) -/

/-- Settles O45: each writes TRUN alone. -/
theorem startAndStopSetTrunAlone : Obligations.StartAndStopSetTrunAlone := fun _ =>
  ⟨portDoes_of_portWrites nofun nofun (fun _ => rfl) fun _ => rfl,
    portDoes_of_portWrites nofun nofun (fun _ => rfl) fun _ => rfl⟩

end Sys2Proof.Machine

/-! PROOFS. The rules of spec/48_host_port_operations.md: the round trip through memory (R222), single registers (R225,
R226), SP (R230), the whole-register accessors (R227 to R233), engine control and status (R234, R237, R238, R240) and
`reset()` (R241). -/

namespace Sys2Proof.Machine

/-! ## `readBytes` after `writeBytes` (R222) -/

/-- The bytes just written are read back where all of them fit in memory. -/
theorem portReadBytes_portWriteBytes {s : State} (wf : s.mem.wf = true) {addr length : Word} {bytes : List Byte}
    (fits : addr.toNat + bytes.length ≤ 4096) (len : length.toNat = bytes.length) :
    portReadBytes addr length (portWriteBytes addr bytes s) = bytes := by
  refine List.ext_getElem ?_ fun k _ inside => ?_
  · rw [length_portReadBytes]
    omega
  · rw [getElem_portReadBytes, read_portWriteBytes_inside wf inside (by omega)]

/-- Settles O49: two transactions in a row, and the read reads memory alone. -/
theorem readBytesAfterWriteBytesReturnsThem : Obligations.ReadBytesAfterWriteBytesReturnsThem := by
  intro s addr bytes rest wf fits due
  have len : (BitVec.ofNat 16 bytes.length).toNat = bytes.length := by
    rw [BitVec.toNat_ofNat]
    omega
  have read := portReadBytes_portWriteBytes
    (s := s.withAgenda (.port (.readBytes addr (.ofNat 16 bytes.length)) :: rest)) wf fits len
  rw [run_port due nofun, run_port (op := .readBytes addr _) (portTransaction_agenda ..) nofun, run_zero]
  exact ⟨_, rfl, congrArg Reply.bytes read, rfl⟩

/-! ## Single registers (R225, R226) -/

section
variable {index : Byte} (value : Byte) (s : State)

theorem portReadRegister_inside {r : Reg} (h : index.toNat = r.toNat) :
    portReadRegister index s = .byte (s.reg r) := by
  rw [portReadRegister, h, Vector.getElem?_eq_getElem r.isLt]
  rfl

theorem portReadRegister_past (h : 16 ≤ index.toNat) : portReadRegister index s = .noValue := by
  simp [portReadRegister, h]

theorem portWriteRegister_inside {r : Reg} (h : index.toNat = r.toNat) :
    portWriteRegister index value s = s.setReg r value := by
  have inBounds : s.v.setIfInBounds r.toNat value = s.v.set r.toNat value r.isLt := by
    ext k
    simp [Vector.getElem_set, Vector.getElem_setIfInBounds]
  rw [portWriteRegister, h, if_pos r.isLt, inBounds, State.setReg]

theorem portWriteRegister_past (h : 16 ≤ index.toNat) : portWriteRegister index value s = s :=
  if_neg (Nat.not_lt.mpr h)

end

/-- Settles O50: below 16 the access is to V[r], above it is no access. -/
theorem singleRegisterAccessRejectsIndexPast15 : Obligations.SingleRegisterAccessRejectsIndexPast15 := by
  refine fun s index value => ⟨fun r inside => ⟨?_, ?_⟩, fun past => ⟨?_, ?_⟩⟩
  · exact portDoes_of_no_effect nofun (fun _ => rfl) fun rest => portReadRegister_inside (s.withAgenda rest) inside
  · refine portDoes_of_portWrites nofun nofun (fun _ => rfl) fun rest => ?_
    rw [portTransaction, portEffect, portWriteRegister_inside value _ inside]
    exact ⟨reg_setReg_same .., fun q other => reg_setReg_other other value (s.withAgenda rest)⟩
  · exact portDoes_of_no_effect nofun (fun _ => rfl) fun rest => portReadRegister_past (s.withAgenda rest) past
  · exact portDoes_of_no_effect nofun (fun rest => portWriteRegister_past value (s.withAgenda rest) past) fun _ => rfl

/-! ## SP (R230) -/

theorem portWriteSP_sp {value : Nat} (legal : value ≤ 16) (s : State) : (portWriteSP value s).sp.toNat = value := by
  have small : value < 2 ^ 5 := by omega
  rw [portWriteSP, if_pos legal, State.withSP_sp, BitVec.toNat_ofNat, Nat.mod_eq_of_lt small]

/-- Settles O51: above 16 the write finds its condition unmet. -/
theorem writeSpRefusesAbove16 : Obligations.WriteSpRefusesAbove16 := fun s _ =>
  ⟨portDoes_of_no_effect nofun (fun _ => rfl) fun _ => rfl,
    fun legal => portDoes_of_portWrites nofun nofun (fun _ => rfl) fun rest => portWriteSP_sp legal (s.withAgenda rest),
    fun above => portDoes_of_no_effect nofun (fun _ => if_neg (Nat.not_le.mpr above)) fun _ => rfl⟩

/-! ## Whole registers (R227 to R233) -/

/-- Settles O52, accessor by accessor: a read has no effect, a write's one part holds the value given. -/
theorem registerAccessorsReadAndWriteWhole : Obligations.RegisterAccessorsReadAndWriteWhole := by
  intro s vs ws w b
  refine ⟨?readRegisters, ?writeRegisters, ?readPC, ?writePC, ?readI, ?writeI, ?readStackFrame, ?writeStackFrame,
    ?readDT, ?writeDT, ?readST, ?writeST⟩
  case readRegisters | readPC | readI | readStackFrame | readDT | readST =>
    exact portDoes_of_no_effect nofun (fun _ => rfl) fun _ => rfl
  case writeRegisters | writePC | writeI | writeStackFrame | writeDT | writeST =>
    exact portDoes_of_portWrites nofun nofun (fun _ => rfl) fun _ => rfl

/-! ## Engine control and status (R234, R237, R238, R240) -/

theorem portRun_stopped {s : State} (h : s.mode = .stopped) : portRun s = s.withMode .running := if_pos h

theorem portRun_ignored {s : State} (h : s.mode ≠ .stopped) : portRun s = s := if_neg h

theorem portStopEngine_running {s : State} (h : s.mode = .running) : portStopEngine s = s.withMode .stopped := if_pos h

theorem portStopEngine_ignored {s : State} (h : s.mode ≠ .running) : portStopEngine s = s := if_neg h

/-- Settles O54: each command by whether MODE is the one it acts on. -/
theorem engineControlMovesBetweenStoppedAndRunning : Obligations.EngineControlMovesBetweenStoppedAndRunning := by
  refine fun s => ⟨fun stopped => ?_, fun other => ?_, fun running => ?_, fun other => ?_, ?_, ?_⟩
  · exact portDoes_of_portWrites nofun nofun (fun _ => rfl) fun rest =>
      congrArg State.mode (portRun_stopped (s := s.withAgenda rest) stopped)
  · exact portDoes_of_no_effect nofun (fun rest => portRun_ignored (s := s.withAgenda rest) other) fun _ => rfl
  · exact portDoes_of_portWrites nofun nofun (fun _ => rfl) fun rest =>
      congrArg State.mode (portStopEngine_running (s := s.withAgenda rest) running)
  · exact portDoes_of_no_effect nofun (fun rest => portStopEngine_ignored (s := s.withAgenda rest) other) fun _ => rfl
  · exact portDoes_of_no_effect nofun (fun _ => rfl) fun _ => rfl
  · exact portDoes_of_no_effect nofun (fun _ => rfl) fun _ => rfl

/-! ## `reset()` (R241, R300) -/

/-- Settles O10: the state after is the reset state but for the agenda kept, and every part of the block is listed. -/
theorem resetOperationRestoresEverything : Obligations.ResetOperationRestoresEverything := by
  refine fun s rest => ⟨_, step_port rfl nofun, rfl, rfl, own_frame rest .noValue State.reset, fun p unlisted => ?_⟩
  have listed : p ∈ Part.own :: portWrites .reset := by cases p <;> decide
  exact absurd listed unlisted

end Sys2Proof.Machine

/-! PROOFS. The rules of spec/60_exceptions.md: which actions can fault (R260), what a fault leaves (R263 to R266), and
that only reset leaves FAULTED (R268). -/

namespace Sys2Proof.Machine

/-! ## Ticks and port operations do not fault (R260, R269) -/

theorem faulted_of_portRun {s : State} (after : (portRun s).mode = .faulted) : s.mode = .faulted := by
  by_cases stopped : s.mode = .stopped
  · rw [portRun_stopped stopped] at after
    cases after
  · rwa [portRun_ignored stopped] at after

theorem faulted_of_portStopEngine {s : State} (after : (portStopEngine s).mode = .faulted) : s.mode = .faulted := by
  by_cases running : s.mode = .running
  · rw [portStopEngine_running running] at after
    cases after
  · rwa [portStopEngine_ignored running] at after

/-- The operations that write MODE make it STOPPED, RUNNING or what it was. -/
theorem faulted_of_portTransaction {op : PortOp} {s : State} (after : (portTransaction op s).mode = .faulted) :
    s.mode = .faulted := by
  by_cases written : Part.mode ∈ portWrites op
  · obtain rfl | rfl | rfl := control_of_mode_mem written
    · cases after
    · exact faulted_of_portRun after
    · exact faulted_of_portStopEngine after
  · have ne : op ≠ .reset := by
      rintro rfl
      exact written (by decide)
    exact (portTransaction_frame ne s .mode (by simpa using written)).symm.trans after

/-- Settles O41: a tick leaves MODE, and no port transaction makes it FAULTED. -/
theorem ticksAndPortOperationsNeverFault : Obligations.TicksAndPortOperationsNeverFault := by
  intro s a rest due notEngine notStepOnce
  cases a with
  | engine => exact absurd rfl notEngine
  | tick =>
    obtain ⟨t, ticked, agenda, _, frame, _⟩ := tickLowersBothTimers s rest due
    exact ⟨t, ticked, agenda, (frame .mode (by decide)).symm.trans⟩
  | port op =>
    have ne : op ≠ .stepOnce := fun e => notStepOnce (congrArg Action.port e)
    exact ⟨_, step_port due ne, portTransaction_agenda op _, faulted_of_portTransaction⟩

/-! ## FAULTED is sticky (R268) -/

/-- The next actions that concern the execution agent: its turn, and the commands that start, stop and step it. -/
def engineActions : List (Option Action) :=
  [none, some .engine, some (.port .run), some (.port .stopEngine), some (.port .stepOnce)]

/-- The engine's turn and its commands find MODE neither STOPPED nor RUNNING. -/
theorem step_faulted_unchanged {s t : State} (faulted : s.mode = .faulted) (h : step s = .next t)
    (due : s.agenda.head? ∈ engineActions) : UnchangedBut [.own] s t := by
  have notStopped : (s.withAgenda s.agenda.tail).mode ≠ .stopped := by simp [faulted]
  have notRunning : (s.withAgenda s.agenda.tail).mode ≠ .running := by simp [faulted]
  obtain ⟨_, turn⟩ | ⟨head, _⟩ | ⟨_, turn⟩ | ⟨op, notStepOnce, head, rfl⟩ := step_cases h
  · rw [engineTurn_idle notRunning] at turn
    cases turn
    exact withAgenda_frame _ s
  · simp [engineActions, head] at due
  · rw [stepOnce_ignored notStopped] at turn
    cases turn
    exact own_frame _ _ s
  · have control : op = .run ∨ op = .stopEngine := by simpa [engineActions, head, notStepOnce] using due
    obtain rfl | rfl := control
    · rw [portTransaction, portEffect, portRun_ignored notStopped]
      exact own_frame _ _ s
    · rw [portTransaction, portEffect, portStopEngine_ignored notRunning]
      exact own_frame _ _ s

/-- In any MODE the other actions, but for `reset()`, write neither MODE nor the report. -/
theorem step_keeps_mode_and_report {s t : State} (h : step s = .next t) (notEngine : s.agenda.head? ∉ engineActions)
    (notReset : s.agenda.head? ≠ some (.port .reset)) : t.mode = s.mode ∧ Part.report.Same s t := by
  obtain ⟨head, _⟩ | ⟨_, rfl⟩ | ⟨head, _⟩ | ⟨op, _, head, rfl⟩ := step_cases h
  · have listed : [none, some .engine] ⊆ engineActions := by decide
    exact absurd (listed head) notEngine
  · have frame := tick_frame (s.withAgenda s.agenda.tail)
    exact ⟨frame .mode (by decide), frame .report (by decide)⟩
  · exact absurd (head ▸ by decide) notEngine
  · have ne : op ≠ .reset := fun e => notReset (e ▸ head)
    have frame := portTransaction_frame ne (s.withAgenda s.agenda.tail)
    have mode : Part.mode ∉ portWrites op := by
      intro written
      obtain rfl | rfl | rfl := control_of_mode_mem written
      · exact ne rfl
      · exact notEngine (head ▸ by decide)
      · exact notEngine (head ▸ by decide)
    have report : Part.report ∉ portWrites op := fun written => ne (eq_reset_of_report_mem written)
    exact ⟨frame .mode (List.not_mem_cons_of_ne_of_not_mem (by decide) mode),
      frame .report (List.not_mem_cons_of_ne_of_not_mem (by decide) report)⟩

/-- Settles O9, by whether the next action concerns the execution agent. -/
theorem faultedIsLeftOnlyByReset : Obligations.FaultedIsLeftOnlyByReset := by
  intro s t faulted h notReset
  by_cases due : s.agenda.head? ∈ engineActions
  · have frame := step_faulted_unchanged faulted h due
    have mode : t.mode = s.mode := frame .mode (by decide)
    exact ⟨mode.trans faulted, frame .report (by decide), fun _ => frame⟩
  · obtain ⟨mode, report⟩ := step_keeps_mode_and_report h due notReset
    exact ⟨mode.trans faulted, report, fun listed => absurd listed due⟩

/-! ## A faulting step is precise (R263 to R266) -/

theorem not_raises_callTargetRange (i : Instr) (s : State) : ¬ raises i .callTargetRange s := by
  cases i <;> exact id

/-- The table of R260 reads SP and I alone, so the fetch's advance of PC is nothing to it. -/
theorem raises_of_raises_advance {i : Instr} {c : Cause} {s : State} (h : raises i c s.advance) : raises i c s := by
  unfold raises at h ⊢
  split at h
  case h_5 => exact h.elim
  all_goals exact h

/-- Settles O40: the step that faults is the fetch fault, or the fetch and then the fault R260 gives the instruction. -/
theorem stepFaultIsPrecise : Obligations.StepFaultIsPrecise := by
  intro s t due h faulted
  rw [step_of_aboutToStep due] at h
  obtain ⟨running, _⟩ := due
  obtain ⟨outside, rfl⟩ | ⟨_, op, fetched, executed⟩ := instructionStep_cases h
  · exact ⟨rfl, nofun, .inl ⟨fetchWord_outside outside, rfl, rfl, rfl⟩, (fetchFault_frame s).mono (by decide)⟩
  · have notFaulted : s.advance.mode ≠ .faulted := by simp [State.advance, running]
    obtain ⟨_, onlyRaised⟩ := execFaultsExactlyWhenRaised
    obtain ⟨c, raised⟩ := onlyRaised _ _ _ executed notFaulted faulted
    obtain rfl := Host.Outcome.next.inj ((exec_of_raises raised).symm.trans executed)
    obtain ⟨_, word⟩ := encodeOfDecodeIsWord op
    have fopc : (executeFault c (decode op) s.advance).fopc = op := word
    refine ⟨addr0_advance s, ?_, .inr ⟨?_, ?_, rfl⟩, ?_⟩
    · rintro rfl
      exact not_raises_callTargetRange _ _ raised
    · rw [fopc, fetched]
    · rw [fopc]
      exact raises_of_raises_advance raised
    · exact ((withPC_frame _ s).mono (by decide)).trans ((executeFault_frame _ _ s.advance).mono (by decide))

end Sys2Proof.Machine
